-- ==== Sys2Proof/Word.lean ====
section
/-! DEFINITION. The word types of the block, at the widths of 00_scope.md R6. Every value is unsigned
(00_scope.md R8). -/

namespace Sys2Proof

/-- An 8-bit value: a V register, SP, a memory byte, a byte immediate `kk` (R6, R8). -/
abbrev Byte := BitVec 8

/-- A 16-bit value: an instruction word, I, PC, a stack entry (R6). -/
abbrev Word := BitVec 16

/-- A V register's index, 4 bits, so that every index names a register (10_state.md R13). -/
abbrev RegIx := BitVec 4

/-- A 12-bit immediate `nnn` (30_encoding.md R49). -/
abbrev Imm12 := BitVec 12

end Sys2Proof
end

