-- ==== Sys2Proof/Syntax.lean ====
section
/-! DEFINITION. The instructions, and the names of the encoding's own notions: mnemonics, templates, table
rows, assembler lines (30_encoding.md). An `Instr` carries exactly the fields of its row, at their widths, so
every term of the type is an encodable instruction (10_state.md R13, 30_encoding.md R51). -/

namespace Sys2Proof

/-- The instructions, in the order of the instruction table (30_encoding.md R55), one constructor per row.
`x` and `y` are V register indexes, `kk` a byte, `nnn` a 12-bit value (R49). -/
inductive Instr where
  /-- `6xkk`, 41_register_alu.md R70. -/
  | ldb (x : RegIx) (kk : Byte)
  /-- `7xkk`, R71. -/
  | addb (x : RegIx) (kk : Byte)
  /-- `8xy0`, R72. -/
  | mov (x y : RegIx)
  /-- `8xy1`, R73. -/
  | or (x y : RegIx)
  /-- `8xy2`, R74. -/
  | and (x y : RegIx)
  /-- `8xy3`, R75. -/
  | xor (x y : RegIx)
  /-- `8xy4`, R76. -/
  | add (x y : RegIx)
  /-- `8xy5`, R77. -/
  | sub (x y : RegIx)
  /-- `8xy7`, R78. -/
  | subn (x y : RegIx)
  /-- `8xy6`, R79; `y` is encoded and not read. -/
  | shr (x y : RegIx)
  /-- `8xyE`, R80; `y` is encoded and not read. -/
  | shl (x y : RegIx)
  /-- `Cxkk`, R81. -/
  | rnd (x : RegIx) (kk : Byte)
  /-- `Annn`, 42_index.md R82. -/
  | ldi (nnn : Imm12)
  /-- `Fx1E`, R83. -/
  | addi (x : RegIx)
  /-- `3xkk`, 43_skip_jump.md R86. -/
  | seb (x : RegIx) (kk : Byte)
  /-- `4xkk`, R87. -/
  | sneb (x : RegIx) (kk : Byte)
  /-- `5xy0`, R88. -/
  | ser (x y : RegIx)
  /-- `9xy0`, R89. -/
  | sner (x y : RegIx)
  /-- `Bnnn`, R90. -/
  | jmpv0 (nnn : Imm12)
  /-- `Fx55`, 44_block_memory.md R92. -/
  | stm (x : RegIx)
  /-- `Fx65`, R93. -/
  | ldm (x : RegIx)
  /-- `2nnn`, 45_subroutine.md R96. -/
  | call (nnn : Imm12)
  /-- `00EE`, R97. -/
  | ret
  deriving DecidableEq, Repr

/-- The functions of the ALU (41_register_alu.md R68). -/
inductive AluFn where
  | pass | or | and | xor | add | sub | shr | subn | shl
  deriving DecidableEq, Repr

/-- The mnemonics of the table, unique across it (30_encoding.md R63). -/
inductive Mnemonic where
  | LDB | ADDB | MOV | OR | AND | XOR | ADD | SUB | SUBN | SHR | SHL | RND
  | LDI | ADDI | SEB | SNEB | SER | SNER | JMPV0 | STM | LDM | CALL | RET
  deriving DecidableEq, Repr

/-- One character of a template: a placeholder letter or a literal hex digit (30_encoding.md R52). -/
inductive TemplateChar where
  | x | y | k | n
  | lit (d : BitVec 4)
  deriving DecidableEq, Repr

/-- "A template is a string of 4 characters" (30_encoding.md R52), leftmost first. -/
structure Template where
  c0 : TemplateChar
  c1 : TemplateChar
  c2 : TemplateChar
  c3 : TemplateChar
  deriving DecidableEq, Repr

/-- A row of the instruction table as 30_encoding.md R55 prints it. -/
structure TableRow where
  template : Template
  mnemonic : Mnemonic
  mask : Word
  pattern : Word
  deriving DecidableEq, Repr

/-- Why a word or a text is no instruction: the two decode faults of 60_exceptions.md R100. -/
inductive DecodeFault where
  /-- The text is not exactly four hex characters (10_state.md R26, 60_exceptions.md R101). -/
  | malformedInstruction
  /-- The word matches no row of the table (30_encoding.md R58, 60_exceptions.md R102). -/
  | unknownInstruction
  deriving DecidableEq, Repr

/-- Why a table of templates is not built (93_implementation_defined.md U10 and U14). -/
inductive TableRefusal where
  /-- A `k` run that is not 2 long or an `n` run that is not 3 long (30_encoding.md R52). -/
  | badTemplate
  /-- Two templates share a word: `TEMPLATE_COLLISION` (60_exceptions.md R107). -/
  | templateCollision
  deriving DecidableEq, Repr

/-- The kinds of operand the assembler's syntax has (30_encoding.md R64). -/
inductive OperandKind where
  | reg | byte | addr
  deriving DecidableEq, Repr

/-- An operand as written: `V` and a digit, or a number (30_encoding.md R64). -/
inductive AsmOperand where
  | reg (n : Nat)
  | num (n : Nat)
  deriving DecidableEq, Repr

/-- One line of assembly: a mnemonic and its operands (30_encoding.md R63). -/
structure AsmLine where
  mnemonic : Mnemonic
  operands : List AsmOperand
  deriving DecidableEq, Repr

end Sys2Proof
end

