-- ==== Sys2Proof/WellFormed.lean ====
section
/-! DEFINITION. The checks on what is written by hand: templates, tables of templates, assembler lines,
programs. An `Instr` needs none: its fields have exactly the widths of 30_encoding.md R49, so an operand
outside its range cannot be written (10_state.md R13). Each check is a Bool; `Tests/Slice0.lean` has an
ill-formed term for each. -/

namespace Sys2Proof

/-- The runs of placeholders a template may hold: `k` in runs of exactly 2, `n` in runs of exactly 3
(30_encoding.md R52; any other run has no meaning, 91_not_in_source.md N13). -/
def templateRunsOk : List TemplateChar → Bool
  | [] => true
  | .k :: .k :: .k :: _ => false
  | .k :: .k :: t => templateRunsOk t
  | .k :: _ => false
  | .n :: .n :: .n :: .n :: _ => false
  | .n :: .n :: .n :: t => templateRunsOk t
  | .n :: _ => false
  | .x :: t => templateRunsOk t
  | .y :: t => templateRunsOk t
  | .lit _ :: t => templateRunsOk t

/-- The characters of a template, leftmost first. -/
def Template.chars (t : Template) : List TemplateChar := [t.c0, t.c1, t.c2, t.c3]

/-- A template has one of the shapes 30_encoding.md R52 gives a meaning. -/
def Template.wellFormed (t : Template) : Bool := templateRunsOk t.chars

/-- Two template characters accept a common digit: they do unless both are literals and differ. -/
def charsMeet : TemplateChar → TemplateChar → Bool
  | .lit a, .lit b => a == b
  | _, _ => true

/-- Two templates match a common word (60_exceptions.md R107). -/
def templatesCollide (a b : Template) : Bool :=
  charsMeet a.c0 b.c0 && charsMeet a.c1 b.c1 && charsMeet a.c2 b.c2 && charsMeet a.c3 b.c3

/-- No two templates of the list, at two different places, match a common word
(30_encoding.md R56: "fail loudly if two templates collide"). -/
def collisionFree : List Template → Bool
  | [] => true
  | t :: ts => ts.all (fun u => !templatesCollide t u) && collisionFree ts

/-- An operand fits the field of its kind (30_encoding.md R64: "A line whose operand does not fit its field
is refused"). -/
def AsmOperand.fits : OperandKind → AsmOperand → Bool
  | .reg, .reg n => decide (n < 16)
  | .byte, .num n => decide (n < 256)
  | .addr, .num n => decide (n < 4096)
  | _, _ => false

/-- The operands each mnemonic takes, in order (30_encoding.md R63). -/
def Mnemonic.operandKinds : Mnemonic → List OperandKind
  | .LDB | .ADDB | .RND | .SEB | .SNEB => [.reg, .byte]
  | .MOV | .OR | .AND | .XOR | .ADD | .SUB | .SUBN | .SHR | .SHL | .SER | .SNER => [.reg, .reg]
  | .LDI | .JMPV0 | .CALL => [.addr]
  | .ADDI | .STM | .LDM => [.reg]
  | .RET => []

/-- Every operand fits, and there are as many as the mnemonic takes. -/
def operandsFit : List OperandKind → List AsmOperand → Bool
  | [], [] => true
  | k :: ks, o :: os => AsmOperand.fits k o && operandsFit ks os
  | _, _ => false

/-- A line the assembler accepts (30_encoding.md R63, R64). -/
def AsmLine.wellFormed (l : AsmLine) : Bool := operandsFit l.mnemonic.operandKinds l.operands

/-- A program of the reference sequencer: 1 to 65536 words (70_reset_and_hazards.md R122). -/
def programWellFormed (prog : List Word) : Bool :=
  decide (1 ≤ prog.length) && decide (prog.length ≤ 65536)

end Sys2Proof
end

