-- ==== Sys2Proof/Decode.lean ====
section
/-! DEFINITION. The instruction word's fields, the opcode matcher and its templates, the instruction table,
decode, and the encoder (30_encoding.md), with the text front-end of 10_state.md R26. -/

namespace Sys2Proof

/-! ## Fields and words (30_encoding.md R49) -/

/-- The major opcode `W[15:12]`. -/
def opField (w : Word) : BitVec 4 := w.extractLsb' 12 4

/-- The field `x = W[11:8]`. -/
def xField (w : Word) : RegIx := w.extractLsb' 8 4

/-- The field `y = W[7:4]`. -/
def yField (w : Word) : RegIx := w.extractLsb' 4 4

/-- The field `N = W[3:0]`. -/
def nField (w : Word) : BitVec 4 := w.extractLsb' 0 4

/-- The field `kk = W[7:0]`, also the minor opcode `sub` of the `Fx..` group. -/
def kkField (w : Word) : Byte := w.extractLsb' 0 8

/-- The field `nnn = W[11:0]`. -/
def nnnField (w : Word) : Imm12 := w.extractLsb' 0 12

/-- The word whose hex digits are `a b c d`, leftmost in bits 15:12 (00_scope.md R7). -/
def wordOfDigits (a b c d : BitVec 4) : Word := (a ++ b ++ c ++ d : BitVec (4 + 4 + 4 + 4))

/-- Format `XKK` (and `XSS`): `o:4 x:4 kk:8` (30_encoding.md R50). -/
def wordXKK (o : BitVec 4) (x : RegIx) (kk : Byte) : Word := (o ++ x ++ kk : BitVec (4 + 4 + 8))

/-- Format `XYN`: `o:4 x:4 y:4 N:4` (30_encoding.md R50). -/
def wordXYN (o : BitVec 4) (x y : RegIx) (n : BitVec 4) : Word := wordOfDigits o x y n

/-- Format `NNN`: `o:4 nnn:12` (30_encoding.md R50). -/
def wordNNN (o : BitVec 4) (nnn : Imm12) : Word := (o ++ nnn : BitVec (4 + 12))

/-! ## Decode and encode -/

/-- The `8xyN` group by its minor opcode (30_encoding.md R57). -/
def decodeAlu (x y : RegIx) (n : BitVec 4) : Except DecodeFault Instr :=
  match n with
  | 0x0#4 => .ok (.mov x y)
  | 0x1#4 => .ok (.or x y)
  | 0x2#4 => .ok (.and x y)
  | 0x3#4 => .ok (.xor x y)
  | 0x4#4 => .ok (.add x y)
  | 0x5#4 => .ok (.sub x y)
  | 0x6#4 => .ok (.shr x y)
  | 0x7#4 => .ok (.subn x y)
  | 0xE#4 => .ok (.shl x y)
  | _ => .error .unknownInstruction

/-- The `Fx..` group by its minor opcode (30_encoding.md R57). -/
def decodeSub (x : RegIx) (sub : Byte) : Except DecodeFault Instr :=
  match sub with
  | 0x1E#8 => .ok (.addi x)
  | 0x55#8 => .ok (.stm x)
  | 0x65#8 => .ok (.ldm x)
  | _ => .error .unknownInstruction

/-- `Decode(W)`, the decision tree of 30_encoding.md R57, total on all words. What R57 calls `NONE` is the
rejection by name `unknownInstruction` (R58, 60_exceptions.md R102). -/
def decode (w : Word) : Except DecodeFault Instr :=
  match opField w with
  | 0x0#4 => if w = 0x00EE#16 then .ok .ret else .error .unknownInstruction
  | 0x2#4 => .ok (.call (nnnField w))
  | 0x3#4 => .ok (.seb (xField w) (kkField w))
  | 0x4#4 => .ok (.sneb (xField w) (kkField w))
  | 0x5#4 => if nField w = 0x0#4 then .ok (.ser (xField w) (yField w)) else .error .unknownInstruction
  | 0x6#4 => .ok (.ldb (xField w) (kkField w))
  | 0x7#4 => .ok (.addb (xField w) (kkField w))
  | 0x8#4 => decodeAlu (xField w) (yField w) (nField w)
  | 0x9#4 => if nField w = 0x0#4 then .ok (.sner (xField w) (yField w)) else .error .unknownInstruction
  | 0xA#4 => .ok (.ldi (nnnField w))
  | 0xB#4 => .ok (.jmpv0 (nnnField w))
  | 0xC#4 => .ok (.rnd (xField w) (kkField w))
  | 0xF#4 => decodeSub (xField w) (kkField w)
  | _ => .error .unknownInstruction

/-- The word of an instruction: its template's literal digits and its operands in the fields of
30_encoding.md R49 (R55; R64 for the unread `y` of SHR and SHL). -/
def encode : Instr → Word
  | .ldb x kk => wordXKK 0x6 x kk
  | .addb x kk => wordXKK 0x7 x kk
  | .mov x y => wordXYN 0x8 x y 0x0
  | .or x y => wordXYN 0x8 x y 0x1
  | .and x y => wordXYN 0x8 x y 0x2
  | .xor x y => wordXYN 0x8 x y 0x3
  | .add x y => wordXYN 0x8 x y 0x4
  | .sub x y => wordXYN 0x8 x y 0x5
  | .subn x y => wordXYN 0x8 x y 0x7
  | .shr x y => wordXYN 0x8 x y 0x6
  | .shl x y => wordXYN 0x8 x y 0xE
  | .rnd x kk => wordXKK 0xC x kk
  | .ldi nnn => wordNNN 0xA nnn
  | .addi x => wordXKK 0xF x 0x1E
  | .seb x kk => wordXKK 0x3 x kk
  | .sneb x kk => wordXKK 0x4 x kk
  | .ser x y => wordXYN 0x5 x y 0x0
  | .sner x y => wordXYN 0x9 x y 0x0
  | .jmpv0 nnn => wordNNN 0xB nnn
  | .stm x => wordXKK 0xF x 0x55
  | .ldm x => wordXKK 0xF x 0x65
  | .call nnn => wordNNN 0x2 nnn
  | .ret => 0x00EE

/-- The decoder on an instruction given as `nbits` bits, numbered as the opcode table numbers them. Every
instruction is one 16-bit word (30_encoding.md R48), so a longer one is refused; a shorter one has its upper
bits 0. -/
def decodeTableWord (nbits w : Nat) : Option Instr :=
  if nbits ≤ 16 then
    match decode (BitVec.ofNat 16 (w % 2 ^ nbits)) with
    | .ok i => some i
    | .error _ => none
  else none

/-! ## The template language (30_encoding.md R52 to R54) -/

/-- A literal covers its four bits with 0xF in the mask, a placeholder with 0 (R53). -/
def TemplateChar.maskDigit : TemplateChar → BitVec 4
  | .lit _ => 0xF
  | _ => 0x0

/-- A literal puts its digit in the match value, a placeholder 0 (R53). -/
def TemplateChar.matchDigit : TemplateChar → BitVec 4
  | .lit d => d
  | _ => 0x0

/-- The mask a template compiles to (R53). -/
def Template.mask (t : Template) : Word :=
  wordOfDigits t.c0.maskDigit t.c1.maskDigit t.c2.maskDigit t.c3.maskDigit

/-- The match value a template compiles to (R53). -/
def Template.pattern (t : Template) : Word :=
  wordOfDigits t.c0.matchDigit t.c1.matchDigit t.c2.matchDigit t.c3.matchDigit

/-- The opcode matcher: `(W AND mask) == match` (R53). -/
def Template.accepts (t : Template) (w : Word) : Bool := w &&& t.mask == t.pattern

/-- One position of the source's string matcher: a literal digit must match, a placeholder takes any (R52). -/
def TemplateChar.takesDigit : TemplateChar → BitVec 4 → Bool
  | .lit d, e => d == e
  | _, _ => true

/-- The source's string matcher, digit by digit on the spelling of the word (R52). -/
def Template.acceptsDigits (t : Template) (w : Word) : Bool :=
  t.c0.takesDigit (opField w) && t.c1.takesDigit (xField w) && t.c2.takesDigit (yField w)
    && t.c3.takesDigit (nField w)

/-- The operands captured left to right, one per group: `x` and `y` one digit each, a `k` run two digits, an
`n` run three (R52, R54). -/
def captureGroups : List (TemplateChar × BitVec 4) → List Nat
  | [] => []
  | (.x, d) :: r => d.toNat :: captureGroups r
  | (.y, d) :: r => d.toNat :: captureGroups r
  | (.k, d) :: (.k, e) :: r => (d.toNat * 16 + e.toNat) :: captureGroups r
  | (.n, d) :: (.n, e) :: (.n, f) :: r => (d.toNat * 256 + e.toNat * 16 + f.toNat) :: captureGroups r
  | _ :: r => captureGroups r

/-- The operands of a word under a template (R54). -/
def Template.captures (t : Template) (w : Word) : List Nat :=
  captureGroups [(t.c0, opField w), (t.c1, xField w), (t.c2, yField w), (t.c3, nField w)]

/-! ## The instruction table (30_encoding.md R55 to R57) -/

/-- Rows 1 to 12: the register loads and the ALU. -/
def tableRegisterAlu : List TableRow :=
  [⟨⟨.lit 0x6, .x, .k, .k⟩, .LDB, 0xF000, 0x6000⟩,
   ⟨⟨.lit 0x7, .x, .k, .k⟩, .ADDB, 0xF000, 0x7000⟩,
   ⟨⟨.lit 0x8, .x, .y, .lit 0x0⟩, .MOV, 0xF00F, 0x8000⟩,
   ⟨⟨.lit 0x8, .x, .y, .lit 0x1⟩, .OR, 0xF00F, 0x8001⟩,
   ⟨⟨.lit 0x8, .x, .y, .lit 0x2⟩, .AND, 0xF00F, 0x8002⟩,
   ⟨⟨.lit 0x8, .x, .y, .lit 0x3⟩, .XOR, 0xF00F, 0x8003⟩,
   ⟨⟨.lit 0x8, .x, .y, .lit 0x4⟩, .ADD, 0xF00F, 0x8004⟩,
   ⟨⟨.lit 0x8, .x, .y, .lit 0x5⟩, .SUB, 0xF00F, 0x8005⟩,
   ⟨⟨.lit 0x8, .x, .y, .lit 0x7⟩, .SUBN, 0xF00F, 0x8007⟩,
   ⟨⟨.lit 0x8, .x, .y, .lit 0x6⟩, .SHR, 0xF00F, 0x8006⟩,
   ⟨⟨.lit 0x8, .x, .y, .lit 0xE⟩, .SHL, 0xF00F, 0x800E⟩,
   ⟨⟨.lit 0xC, .x, .k, .k⟩, .RND, 0xF000, 0xC000⟩]

/-- Rows 13 to 23: index register, skips and jump, block memory, subroutines. -/
def tableRest : List TableRow :=
  [⟨⟨.lit 0xA, .n, .n, .n⟩, .LDI, 0xF000, 0xA000⟩,
   ⟨⟨.lit 0xF, .x, .lit 0x1, .lit 0xE⟩, .ADDI, 0xF0FF, 0xF01E⟩,
   ⟨⟨.lit 0x3, .x, .k, .k⟩, .SEB, 0xF000, 0x3000⟩,
   ⟨⟨.lit 0x4, .x, .k, .k⟩, .SNEB, 0xF000, 0x4000⟩,
   ⟨⟨.lit 0x5, .x, .y, .lit 0x0⟩, .SER, 0xF00F, 0x5000⟩,
   ⟨⟨.lit 0x9, .x, .y, .lit 0x0⟩, .SNER, 0xF00F, 0x9000⟩,
   ⟨⟨.lit 0xB, .n, .n, .n⟩, .JMPV0, 0xF000, 0xB000⟩,
   ⟨⟨.lit 0xF, .x, .lit 0x5, .lit 0x5⟩, .STM, 0xF0FF, 0xF055⟩,
   ⟨⟨.lit 0xF, .x, .lit 0x6, .lit 0x5⟩, .LDM, 0xF0FF, 0xF065⟩,
   ⟨⟨.lit 0x2, .n, .n, .n⟩, .CALL, 0xF000, 0x2000⟩,
   ⟨⟨.lit 0x0, .lit 0x0, .lit 0xE, .lit 0xE⟩, .RET, 0xFFFF, 0x00EE⟩]

/-- The instruction table, in the source's order (R55). -/
def instructionTable : List TableRow := tableRegisterAlu ++ tableRest

/-- A row accepts a word: `(W AND mask) == match` with the row's printed values (R53, R55). -/
def TableRow.accepts (r : TableRow) (w : Word) : Bool := w &&& r.mask == r.pattern

/-- The instruction of a mnemonic with its captured operands, in the operand order of R54. -/
def Mnemonic.build : Mnemonic → List Nat → Option Instr
  | .LDB, [x, kk] => some (.ldb (BitVec.ofNat 4 x) (BitVec.ofNat 8 kk))
  | .ADDB, [x, kk] => some (.addb (BitVec.ofNat 4 x) (BitVec.ofNat 8 kk))
  | .MOV, [x, y] => some (.mov (BitVec.ofNat 4 x) (BitVec.ofNat 4 y))
  | .OR, [x, y] => some (.or (BitVec.ofNat 4 x) (BitVec.ofNat 4 y))
  | .AND, [x, y] => some (.and (BitVec.ofNat 4 x) (BitVec.ofNat 4 y))
  | .XOR, [x, y] => some (.xor (BitVec.ofNat 4 x) (BitVec.ofNat 4 y))
  | .ADD, [x, y] => some (.add (BitVec.ofNat 4 x) (BitVec.ofNat 4 y))
  | .SUB, [x, y] => some (.sub (BitVec.ofNat 4 x) (BitVec.ofNat 4 y))
  | .SUBN, [x, y] => some (.subn (BitVec.ofNat 4 x) (BitVec.ofNat 4 y))
  | .SHR, [x, y] => some (.shr (BitVec.ofNat 4 x) (BitVec.ofNat 4 y))
  | .SHL, [x, y] => some (.shl (BitVec.ofNat 4 x) (BitVec.ofNat 4 y))
  | .RND, [x, kk] => some (.rnd (BitVec.ofNat 4 x) (BitVec.ofNat 8 kk))
  | .LDI, [nnn] => some (.ldi (BitVec.ofNat 12 nnn))
  | .ADDI, [x] => some (.addi (BitVec.ofNat 4 x))
  | .SEB, [x, kk] => some (.seb (BitVec.ofNat 4 x) (BitVec.ofNat 8 kk))
  | .SNEB, [x, kk] => some (.sneb (BitVec.ofNat 4 x) (BitVec.ofNat 8 kk))
  | .SER, [x, y] => some (.ser (BitVec.ofNat 4 x) (BitVec.ofNat 4 y))
  | .SNER, [x, y] => some (.sner (BitVec.ofNat 4 x) (BitVec.ofNat 4 y))
  | .JMPV0, [nnn] => some (.jmpv0 (BitVec.ofNat 12 nnn))
  | .STM, [x] => some (.stm (BitVec.ofNat 4 x))
  | .LDM, [x] => some (.ldm (BitVec.ofNat 4 x))
  | .CALL, [nnn] => some (.call (BitVec.ofNat 12 nnn))
  | .RET, [] => some .ret
  | _, _ => none

/-- The mnemonic of an instruction (30_encoding.md R55, R63). -/
def Instr.mnemonic : Instr → Mnemonic
  | .ldb _ _ => .LDB
  | .addb _ _ => .ADDB
  | .mov _ _ => .MOV
  | .or _ _ => .OR
  | .and _ _ => .AND
  | .xor _ _ => .XOR
  | .add _ _ => .ADD
  | .sub _ _ => .SUB
  | .subn _ _ => .SUBN
  | .shr _ _ => .SHR
  | .shl _ _ => .SHL
  | .rnd _ _ => .RND
  | .ldi _ => .LDI
  | .addi _ => .ADDI
  | .seb _ _ => .SEB
  | .sneb _ _ => .SNEB
  | .ser _ _ => .SER
  | .sner _ _ => .SNER
  | .jmpv0 _ => .JMPV0
  | .stm _ => .STM
  | .ldm _ => .LDM
  | .call _ => .CALL
  | .ret => .RET

/-- `Decode(W)` as R57 defines it first: the entry of the table that accepts the word, with the operands its
template captures. -/
def decodeByTable (w : Word) : Except DecodeFault Instr :=
  match instructionTable.find? (fun r => r.accepts w) with
  | none => .error .unknownInstruction
  | some r =>
    match r.mnemonic.build (r.template.captures w) with
    | some i => .ok i
    | none => .error .unknownInstruction

/-- A row of the table with this mnemonic (30_encoding.md R55). -/
def rowOf (m : Mnemonic) : Option TableRow := instructionTable.find? (fun r => r.mnemonic == m)

/-- Building a table from templates: refused for a template without a meaning (30_encoding.md R52) and for two
templates that collide (30_encoding.md R56, 60_exceptions.md R107); otherwise each template's mask and match. -/
def buildTable (ts : List Template) : Except TableRefusal (List (Word × Word)) :=
  if ts.all Template.wellFormed then
    if collisionFree ts then .ok (ts.map (fun t => (t.mask, t.pattern)))
    else .error .templateCollision
  else .error .badTemplate

/-! ## The text front-end (10_state.md R26) -/

/-- The value of a hex digit character, case ignored. -/
def hexDigit (c : Char) : Option (BitVec 4) :=
  let n := c.toNat
  if 48 ≤ n ∧ n ≤ 57 then some (BitVec.ofNat 4 (n - 48))
  else if 65 ≤ n ∧ n ≤ 70 then some (BitVec.ofNat 4 (n - 55))
  else if 97 ≤ n ∧ n ≤ 102 then some (BitVec.ofNat 4 (n - 87))
  else none

/-- The word of an instruction string, given as its characters: accepted iff it has exactly four hex
characters (10_state.md R26). -/
def parseWord : List Char → Except DecodeFault Word
  | [a, b, c, d] =>
    match hexDigit a, hexDigit b, hexDigit c, hexDigit d with
    | some a, some b, some c, some d => .ok (wordOfDigits a b c d)
    | _, _, _, _ => .error .malformedInstruction
  | _ => .error .malformedInstruction

/-- A template as written: placeholder letters and literal hex digits (30_encoding.md R52). -/
def parseTemplateChar (c : Char) : Option TemplateChar :=
  if c = 'x' then some .x
  else if c = 'y' then some .y
  else if c = 'k' then some .k
  else if c = 'n' then some .n
  else (hexDigit c).map .lit

/-- A template string of exactly four characters (30_encoding.md R52). -/
def parseTemplate : List Char → Option Template
  | [a, b, c, d] =>
    match parseTemplateChar a, parseTemplateChar b, parseTemplateChar c, parseTemplateChar d with
    | some a, some b, some c, some d => some ⟨a, b, c, d⟩
    | _, _, _, _ => none
  | _ => none

end Sys2Proof
end

