-- ==== Sys2Proof/Machine/Flags.lean ====
section
/-! DEFINITION. The ALU's results and flags (41_register_alu.md R68 to R81). Sums and differences are exact
integers, narrowed once at the end (00_scope.md R8). -/

namespace Sys2Proof.Machine

/-- A condition as a flag's value, 1 or 0. -/
def flagOf (c : Bool) : Byte := if c then 0x01 else 0x00

/-- VF after `8xy4`: 1 iff the unbounded sum exceeds 255 (R76). -/
def carryFlag (a b : Byte) : Byte := flagOf (decide (a.toNat + b.toNat > 255))

/-- VF after a subtraction of `b` from `a`: 1 iff `a > b` strictly (R77, R78; 90_conflicts.md C1). -/
def noBorrowFlag (a b : Byte) : Byte := flagOf (decide (a.toNat > b.toNat))

/-- VF after `8xy6`: bit 0 of the operand (R79). -/
def shiftOutRight (a : Byte) : Byte := a &&& 0x01

/-- VF after `8xyE`: bit 7 of the operand (R80; 90_conflicts.md C4). -/
def shiftOutLeft (a : Byte) : Byte := (a >>> 7) &&& 0x01

/-- `(a + b) mod 256` (R71, R76). -/
def addByte (a b : Byte) : Byte := BitVec.ofNat 8 (a.toNat + b.toNat)

/-- `(a - b) mod 256` (R77, R78). -/
def subByte (a b : Byte) : Byte := BitVec.ofInt 8 ((a.toNat : Int) - (b.toNat : Int))

/-- The ALU function that the minor opcode `N = W[3:0]` of an `8xyN` word selects (R68). -/
def aluSelect (n : BitVec 4) : Option AluFn :=
  match n with
  | 0x0#4 => some .pass
  | 0x1#4 => some .or
  | 0x2#4 => some .and
  | 0x3#4 => some .xor
  | 0x4#4 => some .add
  | 0x5#4 => some .sub
  | 0x6#4 => some .shr
  | 0x7#4 => some .subn
  | 0xE#4 => some .shl
  | _ => none

/-- The 8-bit result of an ALU function on `a = V[x]` and `b = V[y]` (R72 to R80). -/
def aluResult (f : AluFn) (a b : Byte) : Byte :=
  match f with
  | .pass => b
  | .or => a ||| b
  | .and => a &&& b
  | .xor => a ^^^ b
  | .add => addByte a b
  | .sub => subByte a b
  | .shr => a >>> 1
  | .subn => subByte b a
  | .shl => BitVec.ofNat 8 (a.toNat * 2)

/-- The flag an ALU function yields for VF, if it yields one (R76 to R80; none for R72 to R75). -/
def aluFlag (f : AluFn) (a b : Byte) : Option Byte :=
  match f with
  | .pass => none
  | .or => none
  | .and => none
  | .xor => none
  | .add => some (carryFlag a b)
  | .sub => some (noBorrowFlag a b)
  | .shr => some (shiftOutRight a)
  | .subn => some (noBorrowFlag b a)
  | .shl => some (shiftOutLeft a)

end Sys2Proof.Machine
end

