-- ==== Sys2Proof/Config.lean ====
section
/-! DEFINITION. What an implementation fixes (00_scope.md R6) and the one free value. -/

namespace Sys2Proof

/-- `MEM_SIZE`, the data memory's size in bytes (00_scope.md R6, 92_eei_decisions.md D3).
DESIGN CHOICE, safe: the spec allows any size from 4096 up and takes 4096 (log 4). -/
def Config.memSize : Nat := 4096

/-- `STACK_DEPTH`, the number of stack entries (00_scope.md R6). -/
def Config.stackDepth : Nat := 16

/-- `SP_EMPTY`, the empty-stack sentinel (00_scope.md R6, 92_eei_decisions.md D31). -/
def Config.spEmpty : Byte := 0xFF

/-- The free value of the `n`-th random draw that no listed byte supplies: "`RAND` is a free 8-bit input of
every dispatch, under no law" (92_eei_decisions.md D18, 10_state.md R25). It has no body, so nothing can be
proved about its value (log 3). -/
opaque Config.randDraw : Nat → Byte

end Sys2Proof
end

