-- ==== Sys2Proof/Machine/State.lean ====
section
/-! DEFINITION. The machine's state as plain data: the block's registers and memory (10_state.md R13 to R21),
the signals of its dispatch transaction (R25), and the environment of the reference sequencer
(70_reset_and_hazards.md R122); with the status names, the ways a run stops, and reset. -/

namespace Sys2Proof.Machine

/-- `STATUS`, by the names of 60_exceptions.md R100. Codes 8 to 255 are never produced
(93_implementation_defined.md U20). -/
inductive Status where
  | ok
  | malformedInstruction
  | unknownInstruction
  | stackOverflow
  | stackUnderflow
  | memoryBounds
  | halted
  | templateCollision
  deriving DecidableEq, Repr

/-- The halting faults of 60_exceptions.md R100, those an instruction's pseudocode raises. -/
inductive HaltingFault where
  /-- Raised by `2nnn` (45_subroutine.md R94). -/
  | stackOverflow
  /-- Raised by `00EE` (45_subroutine.md R95). -/
  | stackUnderflow
  /-- Raised by `Fx55` and `Fx65` (44_block_memory.md R91). -/
  | memoryBounds
  deriving DecidableEq, Repr

/-- The two ends of a run of the reference sequencer (70_reset_and_hazards.md R123). No instruction's meaning
answers with one of these. -/
inductive Fault where
  /-- `END`: PC names no slot of PROG. Raised by `step` only, before any dispatch. Safe: nothing runs. -/
  | endOfProgram
  /-- `FAULT(status)`: the last dispatch returned a status other than OK, so the sequencer has stopped.
  Raised by `step` only, before any dispatch. Safe: nothing runs. -/
  | stoppedOnStatus (st : Status)
  deriving DecidableEq, Repr

/-- Reasons a meaning is refused. No instruction of this model is. -/
inductive Refusal where
  /-- Raised by an arm of `exec` whose instruction has no meaning yet. Safe: nothing runs. -/
  | notModelled (mnemonic : String)
  deriving DecidableEq, Repr

/-- The data memory: (address, byte) pairs in the canonical form of `Memory.wf`; an unlisted address reads as
the reset contents, 0x00 (10_state.md R24; log 6). -/
abbrev Memory := List Host.Cell

/-- Everything the spec gives the machine. -/
structure State where
  /-- `V[0]` to `V[15]` (10_state.md R13, R14). -/
  v : Vector Byte 16
  /-- The index register `I` (R16). -/
  iReg : Word
  /-- The program counter, in instruction slots (R17). -/
  pc : Word
  /-- `STACK[0]` to `STACK[15]` (R18). -/
  stack : Vector Word 16
  /-- The stack pointer, 0xFF when the stack is empty (R19). -/
  sp : Byte
  /-- The data memory `MEM` (R20). -/
  mem : Memory
  /-- `HALTED` (R21). -/
  halted : Bool
  /-- `FAULT_CODE` (R21). -/
  faultCode : Byte
  /-- `FAULT_WORD` (R21). -/
  faultWord : Word
  /-- `FAULT_PC` (R21). -/
  faultPc : Word
  /-- The `RAND` input as it stands for the dispatch (R25). DESIGN CHOICE to hold it here (log 3). -/
  rand : Byte
  /-- The `STATUS` output of the latest dispatch (R25, R30). DESIGN CHOICE to hold it here (log 2). -/
  status : Status
  /-- The `SKIP` output of the latest dispatch (R25, R29). DESIGN CHOICE to hold it here (log 2). -/
  skip : Bool
  /-- The environment's program, one word per slot (70_reset_and_hazards.md R122; log 1). -/
  prog : List Word
  /-- The environment's random bytes, the next one first (R122; log 3). -/
  rands : List Byte
  /-- How many random bytes have been drawn: the model's own field, the argument of the free value
  `Config.randDraw` (log 3). -/
  draws : Nat
  deriving DecidableEq, Repr

/-- The machine right after reset (10_state.md R24, 70_reset_and_hazards.md R119, R120): everything zero but
`SP`, nothing listed in memory. The signals and the environment, for which the spec gives no reset value, are
idle: STATUS OK, SKIP 0, RAND 0, no program, no random bytes (DESIGN CHOICE, log 1, 2 and 3). -/
def State.reset : State where
  v := Vector.replicate 16 0x00
  iReg := 0x0000
  pc := 0x0000
  stack := Vector.replicate 16 0x0000
  sp := Config.spEmpty
  mem := []
  halted := false
  faultCode := 0x00
  faultWord := 0x0000
  faultPc := 0x0000
  rand := 0x00
  status := .ok
  skip := false
  prog := []
  rands := []
  draws := 0

end Sys2Proof.Machine
end

