-- ==== Sys2Proof/Machine/Memory.lean ====
section
/-! DEFINITION. The data memory's primitives (20_memory.md R35) over the canonical list of (address, byte)
pairs, and the canonical form. -/

namespace Sys2Proof.Machine

/-- What an unlisted address reads as: the reset contents (10_state.md R24, 20_memory.md R40; log 6). -/
def Memory.unlisted : Byte := 0x00

/-- `InBounds(a)` (20_memory.md R35); an address is a natural number, so `0 <= a` holds. -/
abbrev InBounds (a : Nat) : Prop := a < Config.memSize

/-- `MemRead(a, 1)` (20_memory.md R35). -/
def Memory.read : Memory → Nat → Byte
  | [], _ => Memory.unlisted
  | (k, c) :: m, a => if k = a then c else Memory.read m a

/-- A cell in front of a memory, left out when it holds what an unlisted address reads as. -/
def Memory.consCell (a : Nat) (b : Byte) (m : Memory) : Memory :=
  if b = Memory.unlisted then m else (a, b) :: m

/-- `MemWrite(a, 1, b)` (20_memory.md R35), keeping the canonical form. -/
def Memory.write : Memory → Nat → Byte → Memory
  | [], a, b => Memory.consCell a b []
  | (k, c) :: m, a, b =>
    if k < a then (k, c) :: Memory.write m a b
    else if k = a then Memory.consCell a b m
    else Memory.consCell a b ((k, c) :: m)

/-- The canonical form from a lower bound on: addresses strictly rising and in bounds, no entry equal to what
an unlisted address reads as. -/
def Memory.wfFrom : Nat → Memory → Bool
  | _, [] => true
  | lo, (a, b) :: m =>
    decide (lo ≤ a) && decide (InBounds a) && decide (b ≠ Memory.unlisted) && Memory.wfFrom (a + 1) m

/-- The canonical form of a memory: equal memories are equal data. -/
def Memory.wf (m : Memory) : Bool := Memory.wfFrom 0 m

/-- The bytes `V[0]` to `V[n-1]` written to `base`, `base + 1`, ... in ascending order
(44_block_memory.md R92, 20_memory.md R38). -/
def Memory.storeBlock (v : RegIx → Byte) (base : Nat) : Nat → Memory → Memory
  | 0, m => m
  | n + 1, m => Memory.write (Memory.storeBlock v base n m) (base + n) (v (BitVec.ofNat 4 n))

end Sys2Proof.Machine
end

