-- ==== Sys2Proof/Machine/Operands.lean ====
section
/-! DEFINITION. The operand forms of 30_encoding.md R51: a V register, the byte and 12-bit immediates widened
with zeros, the implicit V0 and VF, and the effective addresses of the block transfers. -/

namespace Sys2Proof.Machine

/-- Reads `V[x]` (00_scope.md R9). -/
def State.readV (s : State) (x : RegIx) : Byte := s.v[x.toNat]'x.isLt

/-- The index of VF, the flag register (10_state.md R14). -/
def vf : RegIx := 0xF

/-- `zext_16` of a byte (00_scope.md R8). -/
def zextByte (b : Byte) : Word := b.zeroExtend 16

/-- `zext_16` of a 12-bit immediate (00_scope.md R8, 30_encoding.md R51). -/
def zextImm (n : Imm12) : Word := n.zeroExtend 16

/-- The effective address of byte `k` of a block transfer, an unbounded integer: `I + k`
(44_block_memory.md R91). -/
def State.blockAddr (s : State) (k : Nat) : Nat := s.iReg.toNat + k

/-- How many bytes a block transfer with operand `x` moves: `x + 1` (20_memory.md R38). -/
def blockCount (x : RegIx) : Nat := x.toNat + 1

/-- Reads `STACK[j]`. -/
def State.readStack (s : State) (j : BitVec 4) : Word := s.stack[j.toNat]'j.isLt

end Sys2Proof.Machine
end

