-- ==== Sys2Proof/Machine/Ops.lean ====
section
/-! DEFINITION. The named operations every meaning is built from: register writes, the ends of a dispatch,
entry into a halting fault, skips and jumps, the stack controller, the block-transfer check, the ALU
datapath. -/

namespace Sys2Proof.Machine

/-! ## Register writes (00_scope.md R9) -/

/-- `V[x] <- b`. -/
def State.writeV (s : State) (x : RegIx) (b : Byte) : State :=
  { s with v := s.v.set x.toNat b x.isLt }

/-- `I <- w`. -/
def State.writeI (s : State) (w : Word) : State := { s with iReg := w }

/-- `PC <- w`. -/
def State.writePc (s : State) (w : Word) : State := { s with pc := w }

/-- `SP <- b`. -/
def State.writeSp (s : State) (b : Byte) : State := { s with sp := b }

/-- `STACK[j] <- w`. -/
def State.writeStack (s : State) (j : BitVec 4) (w : Word) : State :=
  { s with stack := s.stack.set j.toNat w j.isLt }

/-- The memory replaced by the result of memory writes. -/
def State.writeMem (s : State) (m : Memory) : State := { s with mem := m }

/-- The `RAND` input of a dispatch (10_state.md R25). -/
def State.setRand (s : State) (r : Byte) : State := { s with rand := r }

/-! ## The codes of 60_exceptions.md R100 -/

/-- The 8-bit code of a status. -/
def Status.code : Status → Byte
  | .ok => 0
  | .malformedInstruction => 1
  | .unknownInstruction => 2
  | .stackOverflow => 3
  | .stackUnderflow => 4
  | .memoryBounds => 5
  | .halted => 6
  | .templateCollision => 7

/-- The status a halting fault reports. -/
def HaltingFault.status : HaltingFault → Status
  | .stackOverflow => .stackOverflow
  | .stackUnderflow => .stackUnderflow
  | .memoryBounds => .memoryBounds

/-- The status a decode fault reports. -/
def decodeStatus : DecodeFault → Status
  | .malformedInstruction => .malformedInstruction
  | .unknownInstruction => .unknownInstruction

/-! ## The ends of a dispatch (30_encoding.md R60) -/

/-- The outputs of a dispatch: `STATUS` and `SKIP` (10_state.md R25). -/
def State.report (s : State) (st : Status) (skip : Bool) : State :=
  { s with status := st, skip := skip }

/-- The end of an effect that is no taken skip: `STATUS <- OK`, `SKIP` stays 0 (30_encoding.md R60,
10_state.md R29). -/
def finish (s : State) : Host.Outcome State Fault Refusal := .next (s.report .ok false)

/-- A dispatch that ends with a fault or refusal and no state change (60_exceptions.md R106, R109). -/
def decline (st : Status) (s : State) : Host.Outcome State Fault Refusal :=
  .next (s.report st false)

/-- The fault record of 60_exceptions.md R108: `HALTED`, `FAULT_CODE`, `FAULT_WORD`, `FAULT_PC`. -/
def State.recordFault (s : State) (f : HaltingFault) (w : Word) : State :=
  { s with halted := true, faultCode := f.status.code, faultWord := w, faultPc := s.pc }

/-- Entry into a halting fault (60_exceptions.md R108): the fault record is written, `STATUS` is the fault's
code, `SKIP` is 0, and nothing else changes; no handler is entered. `w` is the dispatched word, which is the
instruction's encoding (log 5). The block has no return from a fault (R112); the one way out is
`State.resetBlock`. -/
def raise (f : HaltingFault) (w : Word) (s : State) : Host.Outcome State Fault Refusal :=
  .next ((s.recordFault f w).report f.status false)

/-- The reset input (10_state.md R28, 70_reset_and_hazards.md R119): every piece of the block's state at its
value of R24, whatever it was. The environment's own program and random bytes are not the block's and stay;
the outputs go idle (DESIGN CHOICE, log 8). -/
def State.resetBlock (s : State) : State :=
  { State.reset with rand := s.rand, prog := s.prog, rands := s.rands, draws := s.draws }

/-! ## Skips and jumps (43_skip_jump.md R84, R85) -/

/-- `Skip(cond)` (R84): a taken skip adds 1 to PC modulo 65536 and sets `SKIP`. -/
def skipIf (cond : Bool) (s : State) : Host.Outcome State Fault Refusal :=
  if cond then .next ((s.writePc (s.pc + 1)).report .ok true) else finish s

/-- The absolute-target convention (R85): `PC <- (t - 1) mod 65536`. -/
def State.jumpTo (s : State) (t : Word) : State := s.writePc (t - 1)

/-! ## The stack controller (45_subroutine.md R94, R95) -/

/-- `Push(v)` (R94); `none` is the raise of `STACK_OVERFLOW`, before any write. -/
def State.push (s : State) (v : Word) : Option State :=
  let sp1 : Byte := s.sp + 1
  if sp1.toNat > 15 then none
  else some ((s.writeSp sp1).writeStack (BitVec.ofNat 4 sp1.toNat) v)

/-- `Pop()` (R95), with the popped value; `none` is the raise of `STACK_UNDERFLOW`, before any write. The
popped entry keeps its value (10_state.md R18). -/
def State.pop (s : State) : Option (Word × State) :=
  if s.sp.toNat > 15 then none
  else some (s.readStack (BitVec.ofNat 4 s.sp.toNat), s.writeSp (s.sp - 1))

/-! ## Block transfers (44_block_memory.md R91 to R93) -/

/-- `CheckBlock(x)` (R91): the last address of the transfer, `I + x`, is in bounds. -/
def State.blockInBounds (s : State) (x : RegIx) : Bool := decide (InBounds (s.blockAddr x.toNat))

/-- `V[0]` to `V[n-1]` loaded from `base`, `base + 1`, ... in ascending order (R93). -/
def State.loadBlock (m : Memory) (base : Nat) : Nat → State → State
  | 0, s => s
  | n + 1, s => (State.loadBlock m base n s).writeV (BitVec.ofNat 4 n) (Memory.read m (base + n))

/-! ## The ALU datapath (41_register_alu.md R68, R69) -/

/-- An `8xyN` instruction: both operands are read first, the result goes to `V[x]`, and the flag, if the
function yields one, goes to VF last. -/
def aluOp (f : AluFn) (x y : RegIx) (s : State) : Host.Outcome State Fault Refusal :=
  let a := s.readV x
  let b := s.readV y
  match aluFlag f a b with
  | none => finish (s.writeV x (aluResult f a b))
  | some fl => finish ((s.writeV x (aluResult f a b)).writeV vf fl)

/-! ## The environment (70_reset_and_hazards.md R121, R122) -/

/-- `FETCH(PC)`, the word of slot PC; none when PC names no slot of PROG (R122, R123). -/
def State.fetch (s : State) : Option Word := s.prog[s.pc.toNat]?

/-- The next random byte of `RANDS`: the first one listed, and past the listed ones a free value
(R122; log 3). -/
def State.drawn (s : State) : Byte :=
  match s.rands with
  | [] => Config.randDraw s.draws
  | r :: _ => r

/-- The environment after a draw. -/
def State.afterDraw (s : State) : State :=
  { s with rands := s.rands.tail, draws := s.draws + 1 }

/-- `PC <- (PC + 1) mod 65536`, the environment's duty after every dispatch that returns OK (R121 item 3). -/
def State.advancePc (s : State) : State := s.writePc (s.pc + 1)

/-- A word put at a slot of a program; slots before it that do not exist yet hold 0x0000, an unknown
instruction (log 12). -/
def placeWord : List Word → Nat → Word → List Word
  | [], 0, w => [w]
  | [], n + 1, w => 0x0000 :: placeWord [] n w
  | _ :: p, 0, w => w :: p
  | a :: p, n + 1, w => a :: placeWord p n w

/-- The word given as `nbits` bits: its lowest 16, the upper ones 0. -/
def tableWord (nbits w : Nat) : Word := BitVec.ofNat 16 (w % 2 ^ nbits)

end Sys2Proof.Machine
end

