-- ==== Sys2Proof/Machine/BlockMemory.lean ====
section
/-! DEFINITION. Block memory transfers (44_block_memory.md R91 to R93). -/

namespace Sys2Proof.Machine

/-- `Fx55` STM (R92): the check of R91, then `MEM[I + i] <- V[i]` for `i` in `0 .. x`; I is unchanged. -/
def execStm (x : RegIx) (s : State) : Host.Outcome State Fault Refusal :=
  if s.blockInBounds x then
    finish (s.writeMem (Memory.storeBlock s.readV (s.blockAddr 0) (blockCount x) s.mem))
  else raise .memoryBounds (encode (.stm x)) s

/-- `Fx65` LDM (R93): the check of R91, then `V[i] <- MEM[I + i]` for `i` in `0 .. x`; I is unchanged. -/
def execLdm (x : RegIx) (s : State) : Host.Outcome State Fault Refusal :=
  if s.blockInBounds x then
    finish (State.loadBlock s.mem (s.blockAddr 0) (blockCount x) s)
  else raise .memoryBounds (encode (.ldm x)) s

end Sys2Proof.Machine
end

