-- ==== Sys2Proof/Machine/Index.lean ====
section
/-! DEFINITION. Index-register instructions (42_index.md R82, R83). -/

namespace Sys2Proof.Machine

/-- `Annn` LDI (R82): `I <- zext_16(nnn)`. -/
def execLdi (nnn : Imm12) (s : State) : Host.Outcome State Fault Refusal :=
  finish (s.writeI (zextImm nnn))

/-- `Fx1E` ADDI (R83): `I <- (I + zext_16(V[x])) mod 65536`, no flag, no bounds check. -/
def execAddi (x : RegIx) (s : State) : Host.Outcome State Fault Refusal :=
  finish (s.writeI (s.iReg + zextByte (s.readV x)))

end Sys2Proof.Machine
end

