-- ==== Sys2Proof/Machine/RegisterAlu.lean ====
section
/-! DEFINITION. Register loads and ALU instructions (41_register_alu.md R70 to R81), in the table's order. -/

namespace Sys2Proof.Machine

/-- `6xkk` LDB (R70): `V[x] <- kk`. -/
def execLdb (x : RegIx) (kk : Byte) (s : State) : Host.Outcome State Fault Refusal :=
  finish (s.writeV x kk)

/-- `7xkk` ADDB (R71): `V[x] <- (V[x] + kk) mod 256`, no flag. -/
def execAddb (x : RegIx) (kk : Byte) (s : State) : Host.Outcome State Fault Refusal :=
  finish (s.writeV x (addByte (s.readV x) kk))

/-- `8xy0` MOV (R72). -/
def execMov (x y : RegIx) (s : State) : Host.Outcome State Fault Refusal := aluOp .pass x y s

/-- `8xy1` OR (R73). -/
def execOr (x y : RegIx) (s : State) : Host.Outcome State Fault Refusal := aluOp .or x y s

/-- `8xy2` AND (R74). -/
def execAnd (x y : RegIx) (s : State) : Host.Outcome State Fault Refusal := aluOp .and x y s

/-- `8xy3` XOR (R75). -/
def execXor (x y : RegIx) (s : State) : Host.Outcome State Fault Refusal := aluOp .xor x y s

/-- `8xy4` ADD (R76). -/
def execAdd (x y : RegIx) (s : State) : Host.Outcome State Fault Refusal := aluOp .add x y s

/-- `8xy5` SUB (R77). -/
def execSub (x y : RegIx) (s : State) : Host.Outcome State Fault Refusal := aluOp .sub x y s

/-- `8xy7` SUBN (R78). -/
def execSubn (x y : RegIx) (s : State) : Host.Outcome State Fault Refusal := aluOp .subn x y s

/-- `8xy6` SHR (R79); the value of `V[y]` has no effect. -/
def execShr (x y : RegIx) (s : State) : Host.Outcome State Fault Refusal := aluOp .shr x y s

/-- `8xyE` SHL (R80); the value of `V[y]` has no effect. -/
def execShl (x y : RegIx) (s : State) : Host.Outcome State Fault Refusal := aluOp .shl x y s

/-- `Cxkk` RND (R81): `V[x] <- RAND AND kk`, where `RAND` is the free input of the dispatch. -/
def execRnd (x : RegIx) (kk : Byte) (s : State) : Host.Outcome State Fault Refusal :=
  finish (s.writeV x (s.rand &&& kk))

end Sys2Proof.Machine
end

