-- ==== Sys2Proof/Machine/SkipJump.lean ====
section
/-! DEFINITION. Skip and jump instructions (43_skip_jump.md R86 to R90). -/

namespace Sys2Proof.Machine

/-- `3xkk` SEB (R86). -/
def execSeb (x : RegIx) (kk : Byte) (s : State) : Host.Outcome State Fault Refusal :=
  skipIf (s.readV x == kk) s

/-- `4xkk` SNEB (R87). -/
def execSneb (x : RegIx) (kk : Byte) (s : State) : Host.Outcome State Fault Refusal :=
  skipIf (s.readV x != kk) s

/-- `5xy0` SER (R88). -/
def execSer (x y : RegIx) (s : State) : Host.Outcome State Fault Refusal :=
  skipIf (s.readV x == s.readV y) s

/-- `9xy0` SNER (R89). -/
def execSner (x y : RegIx) (s : State) : Host.Outcome State Fault Refusal :=
  skipIf (s.readV x != s.readV y) s

/-- `Bnnn` JMPV0 (R90): the target is `V0 + nnn`, the register always V0. -/
def execJmpv0 (nnn : Imm12) (s : State) : Host.Outcome State Fault Refusal :=
  finish (s.jumpTo (zextByte (s.readV 0x0) + zextImm nnn))

end Sys2Proof.Machine
end

