-- ==== Sys2Proof/Machine/Subroutine.lean ====
section
/-! DEFINITION. Call and return (45_subroutine.md R96, R97). -/

namespace Sys2Proof.Machine

/-- `2nnn` CALL (R96): push PC, then jump to `nnn` by the absolute-target convention. -/
def execCall (nnn : Imm12) (s : State) : Host.Outcome State Fault Refusal :=
  match s.push s.pc with
  | none => raise .stackOverflow (encode (.call nnn)) s
  | some t => finish (t.jumpTo (zextImm nnn))

/-- `00EE` RET (R97): pop into PC, the saved value itself. -/
def execRet (s : State) : Host.Outcome State Fault Refusal :=
  match s.pop with
  | none => raise .stackUnderflow (encode .ret) s
  | some (v, t) => finish (t.writePc v)

end Sys2Proof.Machine
end

