-- ==== Sys2Proof/Machine/Dispatch.lean ====
section
/-! DEFINITION. The effect of each instruction, one arm per constructor (30_encoding.md R60: "run the
pseudocode of e's rule"). The HALTED check and decode stand before it, in Machine/Block.lean. -/

namespace Sys2Proof.Machine

def exec (i : Instr) (s : State) : Host.Outcome State Fault Refusal :=
  match i with
  -- 41_register_alu.md
  | .ldb x kk => Sys2Proof.Machine.execLdb x kk s
  | .addb x kk => Sys2Proof.Machine.execAddb x kk s
  | .mov x y => Sys2Proof.Machine.execMov x y s
  | .or x y => Sys2Proof.Machine.execOr x y s
  | .and x y => Sys2Proof.Machine.execAnd x y s
  | .xor x y => Sys2Proof.Machine.execXor x y s
  | .add x y => Sys2Proof.Machine.execAdd x y s
  | .sub x y => Sys2Proof.Machine.execSub x y s
  | .subn x y => Sys2Proof.Machine.execSubn x y s
  | .shr x y => Sys2Proof.Machine.execShr x y s
  | .shl x y => Sys2Proof.Machine.execShl x y s
  | .rnd x kk => Sys2Proof.Machine.execRnd x kk s
  -- 42_index.md
  | .ldi nnn => Sys2Proof.Machine.execLdi nnn s
  | .addi x => Sys2Proof.Machine.execAddi x s
  -- 43_skip_jump.md
  | .seb x kk => Sys2Proof.Machine.execSeb x kk s
  | .sneb x kk => Sys2Proof.Machine.execSneb x kk s
  | .ser x y => Sys2Proof.Machine.execSer x y s
  | .sner x y => Sys2Proof.Machine.execSner x y s
  | .jmpv0 nnn => Sys2Proof.Machine.execJmpv0 nnn s
  -- 44_block_memory.md
  | .stm x => Sys2Proof.Machine.execStm x s
  | .ldm x => Sys2Proof.Machine.execLdm x s
  -- 45_subroutine.md
  | .call nnn => Sys2Proof.Machine.execCall nnn s
  | .ret => Sys2Proof.Machine.execRet s

end Sys2Proof.Machine
end

