-- ==== Sys2Proof/Machine/Block.lean ====
section
/-! DEFINITION. The block's transactions: the dispatch of one word (30_encoding.md R60), the dispatch of a
text (10_state.md R26), the state access port (R27) and the reset input (R28); and one turn of the reference
sequencer over them (70_reset_and_hazards.md R122). -/

namespace Sys2Proof.Machine

/-! ## Dispatch -/

/-- `Dispatch(W, RAND)` (30_encoding.md R60): refused while halted, before decode (60_exceptions.md R106);
an unknown word changes no state (R109); otherwise the instruction's effect, with `RAND` at the input. -/
def dispatch (w : Word) (rand : Byte) (s : State) : Host.Outcome State Fault Refusal :=
  if s.halted then decline .halted s
  else
    match decode w with
    | .error e => decline (decodeStatus e) s
    | .ok i => exec i (s.setRand rand)

/-- The dispatch of an instruction string, given as its characters (10_state.md R26): a malformed one is
refused before anything else (60_exceptions.md R111). -/
def dispatchText (text : List Char) (rand : Byte) (s : State) : Host.Outcome State Fault Refusal :=
  match parseWord text with
  | .error e => decline (decodeStatus e) s
  | .ok w => dispatch w rand s

/-! ## The state access port (10_state.md R27) -/

/-- What the port can read. A memory address is one below MEM_SIZE. -/
inductive PortPlace where
  | v (x : RegIx)
  | i
  | pc
  | sp
  | stack (j : BitVec 4)
  | mem (a : Fin Config.memSize)
  | halted
  | faultCode
  | faultWord
  | faultPc
  deriving DecidableEq, Repr

/-- What the port can write, each with a value of the register's width. The fault record is not among them. -/
inductive PortWrite where
  | v (x : RegIx) (b : Byte)
  | i (w : Word)
  | pc (w : Word)
  | sp (b : Byte)
  | stack (j : BitVec 4) (w : Word)
  | mem (a : Fin Config.memSize) (b : Byte)
  deriving DecidableEq, Repr

/-- The place a port write goes to. -/
def portPlaceOf : PortWrite → PortPlace
  | .v x _ => .v x
  | .i _ => .i
  | .pc _ => .pc
  | .sp _ => .sp
  | .stack j _ => .stack j
  | .mem a _ => .mem a

/-- The number a port write carries. -/
def portValueOf : PortWrite → Nat
  | .v _ b => b.toNat
  | .i w => w.toNat
  | .pc w => w.toNat
  | .sp b => b.toNat
  | .stack _ w => w.toNat
  | .mem _ b => b.toNat

/-- The number the port reads at a place. -/
def portRead (p : PortPlace) (s : State) : Nat :=
  match p with
  | .v x => (s.readV x).toNat
  | .i => s.iReg.toNat
  | .pc => s.pc.toNat
  | .sp => s.sp.toNat
  | .stack j => (s.readStack j).toNat
  | .mem a => (Memory.read s.mem a.val).toNat
  | .halted => s.halted.toNat
  | .faultCode => s.faultCode.toNat
  | .faultWord => s.faultWord.toNat
  | .faultPc => s.faultPc.toNat

/-- A write through the port, with no validation (10_state.md R27, 93_implementation_defined.md U16). -/
def portWrite (p : PortWrite) (s : State) : State :=
  match p with
  | .v x b => s.writeV x b
  | .i w => s.writeI w
  | .pc w => s.writePc w
  | .sp b => s.writeSp b
  | .stack j w => s.writeStack j w
  | .mem a b => s.writeMem (Memory.write s.mem a.val b)

/-! ## Transactions (00_scope.md R5) -/

/-- One atomic transition of the block. -/
inductive Transaction where
  | dispatch (w : Word) (rand : Byte)
  | dispatchText (text : List Char) (rand : Byte)
  | portRead (p : PortPlace)
  | portWrite (p : PortWrite)
  | reset
  deriving DecidableEq, Repr

/-- The state a transaction leaves. -/
def transact (t : Transaction) (s : State) : Host.Outcome State Fault Refusal :=
  match t with
  | .dispatch w rand => dispatch w rand s
  | .dispatchText text rand => dispatchText text rand s
  | .portRead _ => .next s
  | .portWrite p => .next (portWrite p s)
  | .reset => .next s.resetBlock

/-! ## The reference sequencer (70_reset_and_hazards.md R121 to R123) -/

/-- The environment after a dispatch: it adds 1 to PC iff the status is OK (R121 item 3, R122). -/
def State.afterDispatch (t : State) : State := if t.status = .ok then t.advancePc else t

/-- One turn of the loop of R122, entered after the previous dispatch: stop on a status other than OK, stop at
the end of the program, else draw, dispatch and advance. -/
def sequencerTurn (s : State) : Host.Outcome State Fault Refusal :=
  if s.status = .ok then
    match s.fetch with
    | none => .fault .endOfProgram
    | some w =>
      match dispatch w s.drawn s.afterDraw with
      | .next t => .next t.afterDispatch
      | .fault r => .fault r
      | .refused r => .refused r
  else .fault (.stoppedOnStatus s.status)

/-- How a run of the reference sequencer ended (R123). -/
inductive RunEnd where
  /-- `END`. -/
  | endOfProgram
  /-- `FAULT(status)`. -/
  | faultStatus (st : Status)
  deriving DecidableEq, Repr

/-- `Run` of R122 under fuel, from a state that holds PROG and RANDS: how it ended and in which state; `none`
when the fuel ran out, which is not an end (R123). -/
def runSequencer : Nat → State → Option (RunEnd × State)
  | 0, _ => none
  | k + 1, s =>
    match sequencerTurn s with
    | .next t => runSequencer k t
    | .fault .endOfProgram => some (.endOfProgram, s)
    | .fault (.stoppedOnStatus st) => some (.faultStatus st, s)
    | .refused _ => none

/-- The start state of a run: the reset state with a program and random bytes made available
(R121 item 1, R122). -/
def startState (prog : List Word) (rands : List Byte) : State :=
  { State.reset with prog := prog, rands := rands }

end Sys2Proof.Machine
end

