-- ==== Sys2Proof/Machine/Step.lean ====
section
/-! DEFINITION. The step of the closed machine: one turn of the reference sequencer
(70_reset_and_hazards.md R122), and where its next word stands. -/

namespace Sys2Proof.Machine

/-- One step: the environment fetches and dispatches one word and advances PC, or the run has ended. -/
def step (s : State) : Host.Outcome State Fault Refusal := sequencerTurn s

/-- The state with a word stored at slot PC, and the sequencer not stopped, so that the next step dispatches
exactly that word (log 12). HALTED stays: a halted block refuses the word (60_exceptions.md R106). -/
def State.withFetchWord (s : State) (nbits w : Nat) : State :=
  { s with prog := placeWord s.prog s.pc.toNat (tableWord nbits w), status := .ok }

end Sys2Proof.Machine
end

