-- ==== Sys2Proof/Machine/Assembler.lean ====
section
/-! DEFINITION. The assembler's syntax (30_encoding.md R63 to R65): one line is one mnemonic and its operands,
and becomes one word. A text is given as its characters. -/

namespace Sys2Proof.Machine

/-- The number an operand puts into its field (30_encoding.md R64). -/
def operandValue : AsmOperand → Nat
  | .reg n => n
  | .num n => n

/-- The word of a line; a line whose operands do not fit is refused (30_encoding.md R64). -/
def assemble (l : AsmLine) : Option Word :=
  if l.wellFormed then (l.mnemonic.build (l.operands.map operandValue)).map encode else none

/-- The operands of an instruction, in the order of 30_encoding.md R63. -/
def asmOperands : Instr → List AsmOperand
  | .ldb x kk => [.reg x.toNat, .num kk.toNat]
  | .addb x kk => [.reg x.toNat, .num kk.toNat]
  | .mov x y => [.reg x.toNat, .reg y.toNat]
  | .or x y => [.reg x.toNat, .reg y.toNat]
  | .and x y => [.reg x.toNat, .reg y.toNat]
  | .xor x y => [.reg x.toNat, .reg y.toNat]
  | .add x y => [.reg x.toNat, .reg y.toNat]
  | .sub x y => [.reg x.toNat, .reg y.toNat]
  | .subn x y => [.reg x.toNat, .reg y.toNat]
  | .shr x y => [.reg x.toNat, .reg y.toNat]
  | .shl x y => [.reg x.toNat, .reg y.toNat]
  | .rnd x kk => [.reg x.toNat, .num kk.toNat]
  | .ldi nnn => [.num nnn.toNat]
  | .addi x => [.reg x.toNat]
  | .seb x kk => [.reg x.toNat, .num kk.toNat]
  | .sneb x kk => [.reg x.toNat, .num kk.toNat]
  | .ser x y => [.reg x.toNat, .reg y.toNat]
  | .sner x y => [.reg x.toNat, .reg y.toNat]
  | .jmpv0 nnn => [.num nnn.toNat]
  | .stm x => [.reg x.toNat]
  | .ldm x => [.reg x.toNat]
  | .call nnn => [.num nnn.toNat]
  | .ret => []

/-- The line that writes an instruction (30_encoding.md R63). -/
def asmLine (i : Instr) : AsmLine := ⟨i.mnemonic, asmOperands i⟩

/-! ## The text of a line -/

/-- A mnemonic's spelling (30_encoding.md R63). -/
def mnemonicChars : Mnemonic → List Char
  | .LDB => ['L', 'D', 'B']
  | .ADDB => ['A', 'D', 'D', 'B']
  | .MOV => ['M', 'O', 'V']
  | .OR => ['O', 'R']
  | .AND => ['A', 'N', 'D']
  | .XOR => ['X', 'O', 'R']
  | .ADD => ['A', 'D', 'D']
  | .SUB => ['S', 'U', 'B']
  | .SUBN => ['S', 'U', 'B', 'N']
  | .SHR => ['S', 'H', 'R']
  | .SHL => ['S', 'H', 'L']
  | .RND => ['R', 'N', 'D']
  | .LDI => ['L', 'D', 'I']
  | .ADDI => ['A', 'D', 'D', 'I']
  | .SEB => ['S', 'E', 'B']
  | .SNEB => ['S', 'N', 'E', 'B']
  | .SER => ['S', 'E', 'R']
  | .SNER => ['S', 'N', 'E', 'R']
  | .JMPV0 => ['J', 'M', 'P', 'V', '0']
  | .STM => ['S', 'T', 'M']
  | .LDM => ['L', 'D', 'M']
  | .CALL => ['C', 'A', 'L', 'L']
  | .RET => ['R', 'E', 'T']

/-- The mnemonic a spelling names (30_encoding.md R63: one per row, unique). -/
def parseMnemonic (cs : List Char) : Option Mnemonic :=
  (instructionTable.map TableRow.mnemonic).find? (fun m => mnemonicChars m == cs)

/-- A hex numeral's value after the digits already read, most significant digit first; none for a non-hex text.
DESIGN CHOICE: the letters `a` to `f` are digits in either case, where 30_encoding.md R64 is silent (log 11). -/
def parseHex : List Char → Nat → Option Nat
  | [], acc => some acc
  | c :: cs, acc =>
    match hexDigit c with
    | some d => parseHex cs (acc * 16 + d.toNat)
    | none => none

/-- A decimal numeral's value after the digits already read. DESIGN CHOICE: leading zeros are allowed (log 11). -/
def parseDec : List Char → Nat → Option Nat
  | [], acc => some acc
  | c :: cs, acc =>
    if 48 ≤ c.toNat ∧ c.toNat ≤ 57 then parseDec cs (acc * 10 + (c.toNat - 48)) else none

/-- A number "in hex with a `0x` prefix or as decimal" (30_encoding.md R64). DESIGN CHOICE: leading zeros are
allowed, and no other prefix (log 11). -/
def parseNumber : List Char → Option Nat
  | [] => none
  | ['0', 'x'] => none
  | '0' :: 'x' :: cs => parseHex cs 0
  | cs => parseDec cs 0

/-- An operand: `V` and one hex digit, or a number (30_encoding.md R64, which prints the digits `0` to `F`).
DESIGN CHOICE: a register's digit may be a lower-case letter, the `V` may not (log 11). -/
def parseOperand : List Char → Option AsmOperand
  | ['V', c] => (hexDigit c).map (fun d => .reg d.toNat)
  | cs => (parseNumber cs).map .num

/-- The pieces of a text between occurrences of a character. -/
def splitAtChar (c : Char) : List Char → List (List Char)
  | [] => [[]]
  | a :: r =>
    if a = c then [] :: splitAtChar c r
    else
      match splitAtChar c r with
      | [] => [[a]]
      | h :: t => (a :: h) :: t

/-- A text without the spaces around it (DESIGN CHOICE: spaces around operands mean nothing, log 11). -/
def trimSpaces (cs : List Char) : List Char :=
  ((cs.dropWhile (· == ' ')).reverse.dropWhile (· == ' ')).reverse

/-- Every element present, or none. -/
def allPresent : List (Option AsmOperand) → Option (List AsmOperand)
  | [] => some []
  | none :: _ => none
  | some o :: r => (allPresent r).map (o :: ·)

/-- A line of text: the mnemonic up to the first space, then operands separated by commas
(30_encoding.md R63, R64; log 11). -/
def parseLine (text : List Char) : Option AsmLine :=
  let t := trimSpaces text
  let name := t.takeWhile (· != ' ')
  let rest := trimSpaces (t.dropWhile (· != ' '))
  match parseMnemonic name with
  | none => none
  | some m =>
    if rest = [] then some ⟨m, []⟩
    else (allPresent ((splitAtChar ',' rest).map (fun o => parseOperand (trimSpaces o)))).map (AsmLine.mk m)

/-- The word of a line of text. -/
def assembleText (text : List Char) : Option Word := (parseLine text).bind assemble

end Sys2Proof.Machine
end

