-- ==== Sys2Proof/Safety.lean ====
section
/-! DEFINITION. The terms the claims use: what an instruction leaves unchanged, how a dispatch ends, and the
invariant of a run. -/

namespace Sys2Proof.Machine

/-! ## Frames: the second state keeps what the first had -/

/-- Every V register. -/
def SameV (s t : State) : Prop := ∀ r, t.readV r = s.readV r

/-- Every V register but those `p` names. -/
def SameVBut (p : RegIx → Prop) (s t : State) : Prop := ∀ r, ¬ p r → t.readV r = s.readV r

/-- SP and every stack entry. -/
def SameStack (s t : State) : Prop := t.sp = s.sp ∧ ∀ j, t.readStack j = s.readStack j

/-- Every byte of memory. -/
def SameMem (s t : State) : Prop := ∀ a, Memory.read t.mem a = Memory.read s.mem a

/-- The fault record of 10_state.md R21. -/
def SameRecord (s t : State) : Prop :=
  t.halted = s.halted ∧ t.faultCode = s.faultCode ∧ t.faultWord = s.faultWord ∧ t.faultPc = s.faultPc

/-- The inputs and the environment, which no instruction writes. -/
def SameInputs (s t : State) : Prop :=
  t.rand = s.rand ∧ t.prog = s.prog ∧ t.rands = s.rands ∧ t.draws = s.draws

/-- The architectural state of 10_state.md R13 to R20. -/
def SameArch (s t : State) : Prop :=
  SameV s t ∧ t.iReg = s.iReg ∧ t.pc = s.pc ∧ SameStack s t ∧ SameMem s t

/-- Everything but V registers and the outputs. -/
def SameOutsideV (s t : State) : Prop :=
  t.iReg = s.iReg ∧ t.pc = s.pc ∧ SameStack s t ∧ SameMem s t ∧ SameRecord s t ∧ SameInputs s t

/-- Everything but PC and the outputs. -/
def SameOutsidePc (s t : State) : Prop :=
  SameV s t ∧ t.iReg = s.iReg ∧ SameStack s t ∧ SameMem s t ∧ SameRecord s t ∧ SameInputs s t

/-- Memory is in its canonical form. -/
def State.MemCanonical (s : State) : Prop := Memory.wf s.mem = true

/-! ## Ends of a dispatch -/

/-- The dispatch applied its effect: `STATUS` is OK, and `SKIP` is as given (10_state.md R29, R30). -/
def EndsOk (t : State) (skip : Bool) : Prop := t.status = .ok ∧ t.skip = skip

/-- The dispatch ended with this status, with `SKIP` 0 and no piece of the block's state changed. -/
def EndsUnchanged (st : Status) (s t : State) : Prop :=
  t.status = st ∧ t.skip = false ∧ SameArch s t ∧ SameRecord s t

/-- Entry into a halting fault with this status, code and word (60_exceptions.md R108): the record is written
and nothing else of the block's state changes. -/
def HaltsWith (st : Status) (code : Byte) (w : Word) (s t : State) : Prop :=
  t.halted = true ∧ t.faultCode = code ∧ t.faultWord = w ∧ t.faultPc = s.pc ∧
    t.status = st ∧ t.skip = false ∧ SameArch s t

/-- The statuses of the halting faults (60_exceptions.md R100). -/
def Status.haltsBlock : Status → Bool
  | .ok => false
  | .malformedInstruction => false
  | .unknownInstruction => false
  | .stackOverflow => true
  | .stackUnderflow => true
  | .memoryBounds => true
  | .halted => false
  | .templateCollision => false

/-- A skip instruction's effect (43_skip_jump.md R84): PC and `SKIP` as the condition says, all else kept. -/
def SkipsIf (c : Prop) (s t : State) : Prop :=
  SameOutsidePc s t ∧ t.status = .ok ∧
    (c → t.pc.toNat = (s.pc.toNat + 1) % 65536 ∧ t.skip = true) ∧
    (¬ c → t.pc = s.pc ∧ t.skip = false)

/-- A port write's effect (10_state.md R27): the value stands at the place the port names, and everything else but
the outputs is as it was. That a memory byte then reads as written is said of the canonical memories (log 6). -/
def PortWrites : PortWrite → State → State → Prop
  | .v x b, s, t => t.readV x = b ∧ SameVBut (· = x) s t ∧ SameOutsideV s t
  | .i w, s, t => t.iReg = w ∧ SameV s t ∧ t.pc = s.pc ∧ SameStack s t ∧ SameMem s t ∧ SameRecord s t ∧ SameInputs s t
  | .pc w, s, t => t.pc = w ∧ SameOutsidePc s t
  | .sp b, s, t => t.sp = b ∧ (∀ j, t.readStack j = s.readStack j) ∧
      SameV s t ∧ t.iReg = s.iReg ∧ t.pc = s.pc ∧ SameMem s t ∧ SameRecord s t ∧ SameInputs s t
  | .stack j w, s, t => t.readStack j = w ∧ (∀ k, k ≠ j → t.readStack k = s.readStack k) ∧ t.sp = s.sp ∧
      SameV s t ∧ t.iReg = s.iReg ∧ t.pc = s.pc ∧ SameMem s t ∧ SameRecord s t ∧ SameInputs s t
  | .mem a b, s, t => (s.MemCanonical → Memory.read t.mem a.val = b) ∧
      (∀ k, k ≠ a.val → Memory.read t.mem k = Memory.read s.mem k) ∧ SameV s t ∧ t.iReg = s.iReg ∧ t.pc = s.pc ∧ SameStack s t ∧ SameRecord s t ∧ SameInputs s t

/-! ## Encodings: the words that decode to an instruction are those of its row, operands from the fields of
30_encoding.md R49 -/

/-- An instruction with the operands `x` and `kk`. -/
def EncodesXKK (mask pattern : Word) (c : RegIx → Byte → Instr) : Prop :=
  ∀ w x kk, decode w = .ok (c x kk) ↔ (w &&& mask = pattern ∧ xField w = x ∧ kkField w = kk)

/-- An instruction with the operands `x` and `y`. -/
def EncodesXY (mask pattern : Word) (c : RegIx → RegIx → Instr) : Prop :=
  ∀ w x y, decode w = .ok (c x y) ↔ (w &&& mask = pattern ∧ xField w = x ∧ yField w = y)

/-- An instruction with the operand `nnn`. -/
def EncodesNNN (mask pattern : Word) (c : Imm12 → Instr) : Prop :=
  ∀ w nnn, decode w = .ok (c nnn) ↔ (w &&& mask = pattern ∧ nnnField w = nnn)

/-- An instruction with the operand `x`. -/
def EncodesX (mask pattern : Word) (c : RegIx → Instr) : Prop :=
  ∀ w x, decode w = .ok (c x) ↔ (w &&& mask = pattern ∧ xField w = x)

/-! ## The invariant -/

/-- SP is the sentinel or the index of an entry (10_state.md R19). -/
def State.SpLegal (s : State) : Prop := s.sp = 0xFF ∨ s.sp.toNat ≤ 15

/-- The fault record is clear while the block runs; while it is halted the record names the code of a halting
fault, a word of an instruction that raises that fault, and PC (10_state.md R21, 60_exceptions.md R108). -/
def State.RecordConsistent (s : State) : Prop :=
  (s.halted = false → s.faultCode = 0 ∧ s.faultWord = 0 ∧ s.faultPc = 0) ∧
  (s.halted = true → s.faultPc = s.pc ∧
    ((s.faultCode = 3 ∧ ∃ nnn, s.faultWord = encode (.call nnn)) ∨
     (s.faultCode = 4 ∧ s.faultWord = encode .ret) ∨
     (s.faultCode = 5 ∧ ∃ x, s.faultWord = encode (.stm x) ∨ s.faultWord = encode (.ldm x))))

/-- A halted block has reported a status other than OK, so the sequencer does not dispatch to it
(70_reset_and_hazards.md R121 item 4). -/
def State.HaltReported (s : State) : Prop := s.halted = true → s.status ≠ .ok

/-- The invariant every step keeps. -/
def State.Inv (s : State) : Prop :=
  s.SpLegal ∧ s.MemCanonical ∧ s.RecordConsistent ∧ s.HaltReported

end Sys2Proof.Machine
end

