-- ==== Sys2Proof/Certificates/Slice0/Obligations.lean ====
section
/-! DEFINITION. The statements for the provers. Each formalises rules of spec/ over the model; frames are said
through `Sys2Proof/Safety.lean`'s predicates. -/

open Sys2Proof Sys2Proof.Machine

/-! ## Reset and the invariant -/

/-- 10_state.md R24, R28: the reset input answers a state with every value of the reset table, whatever the
state was, and so does creation. -/
def Obligations.ResetGivesTheCreationState : Prop :=
  ∀ s : State, ∃ t, transact .reset s = .next t ∧
    (∀ u ∈ [t, State.reset],
      (∀ r, u.readV r = 0x00) ∧ u.iReg = 0x0000 ∧ u.pc = 0x0000 ∧ (∀ j, u.readStack j = 0x0000) ∧
      u.sp = 0xFF ∧ (∀ a, a < 4096 → Memory.read u.mem a = 0x00) ∧ u.halted = false ∧ u.faultCode = 0 ∧
      u.faultWord = 0x0000 ∧ u.faultPc = 0x0000)

/-- The reset state meets the invariant. -/
def Obligations.ResetMeetsTheInvariant : Prop := State.reset.Inv

/-- Every step keeps the invariant: SP is the sentinel or an entry's index (10_state.md R19), memory is
canonical and in bounds, the fault record is clear or names a fault its word can raise and the present PC
(10_state.md R21), and a halted block has reported it. -/
def Obligations.EveryStepKeepsTheInvariant : Prop :=
  ∀ s t : State, s.Inv → step s = .next t → t.Inv

/-- Every transaction of the block other than a port write keeps the invariant, whatever word or text is
dispatched and whatever the random byte. -/
def Obligations.EveryTransactionButAPortWriteKeepsTheInvariant : Prop :=
  ∀ (tr : Transaction) (s t : State), (∀ p, tr ≠ .portWrite p) → s.Inv → transact tr s = .next t → t.Inv

/-! ## Encoding -/

/-- No bit of an encoding is dropped and each word has one meaning: decode of encode is the instruction, with
every operand at every value, and a word that decodes is the encoding of what it decodes to. So the word a
meaning records as FAULT_WORD is the dispatched word (log 5). -/
def Obligations.DecodeAndEncodeAreInverse : Prop :=
  (∀ i : Instr, decode (encode i) = .ok i) ∧ (∀ (w : Word) (i : Instr), decode w = .ok i → encode i = w)

/-- 30_encoding.md R57 (which the spec derives from R53 and R55): the decision tree is the lookup in the
instruction table, operands captured by the row's template. -/
def Obligations.DecisionTreeIsTableLookup : Prop := ∀ w : Word, decode w = decodeByTable w

/-- 30_encoding.md R56 (which the spec derives from R53 and R55): no word matches two entries, so the table
builds, with the printed masks and match values. -/
def Obligations.NoWordMatchesTwoRows : Prop :=
  (∀ (w : Word) (r u : TableRow), r ∈ instructionTable → u ∈ instructionTable →
    w &&& r.mask = r.pattern → w &&& u.mask = u.pattern → r = u) ∧
  buildTable (instructionTable.map TableRow.template) =
    .ok (instructionTable.map (fun r => (r.mask, r.pattern)))

/-- 30_encoding.md R53 (which the spec derives from R52): a template's mask and match have a literal's digit
under 0xF and 0 under a placeholder, and masking is the same test as the string matcher, digit by digit. -/
def Obligations.MaskAndMatchIsTheStringMatcher : Prop :=
  ∀ (t : Template) (w : Word),
    (∀ c m p, (c, m, p) ∈ [(t.c0, opField t.mask, opField t.pattern), (t.c1, xField t.mask, xField t.pattern),
        (t.c2, yField t.mask, yField t.pattern), (t.c3, nField t.mask, nField t.pattern)] →
      (∀ d, c = .lit d → m = 0xF ∧ p = d) ∧ ((∀ d, c ≠ .lit d) → m = 0x0 ∧ p = 0x0)) ∧
    (w &&& t.mask = t.pattern ↔ t.acceptsDigits w = true)

/-- 60_exceptions.md R107, 30_encoding.md R52: the collision check finds exactly the pairs of templates that match
a common word; a table in which two places share a word is refused with TEMPLATE_COLLISION, and any other table of
templates with a meaning builds. A template has a meaning iff its `k`s are one run of 2 and its `n`s one run of 3,
or it has none; a table with another one is refused, before the collision check (the model's choice, log 10). -/
def Obligations.CollisionMeansACommonWord : Prop :=
  (∀ a b : Template, templatesCollide a b = true ↔ ∃ w, a.accepts w = true ∧ b.accepts w = true) ∧
  (∀ t : Template, t.wellFormed = true ↔
    t.chars.map (fun c => decide (c = .k)) ∈ [[false, false, false, false], [true, true, false, false],
      [false, true, true, false], [false, false, true, true]] ∧
    t.chars.map (fun c => decide (c = .n)) ∈ [[false, false, false, false], [true, true, true, false],
      [false, true, true, true]]) ∧
  (∀ ts : List Template,
    ((∃ t ∈ ts, t.wellFormed = false) → buildTable ts = .error .badTemplate) ∧
    ((∀ t ∈ ts, t.wellFormed = true) →
      ((∃ (i j : Nat) (a b : Template) (w : Word), i < j ∧ ts[i]? = some a ∧ ts[j]? = some b ∧
          a.accepts w = true ∧ b.accepts w = true) →
        buildTable ts = .error .templateCollision) ∧
      ((∀ (i j : Nat) (a b : Template) (w : Word), i < j → ts[i]? = some a → ts[j]? = some b →
          a.accepts w = true → b.accepts w = false) →
        buildTable ts = .ok (ts.map (fun t => (t.mask, t.pattern))))))

/-- 30_encoding.md R58: the unassigned words are the listed ones, and the dispatch of one reports
UNKNOWN_INSTRUCTION and changes no state. -/
def Obligations.UnassignedWordsAreUnknown : Prop :=
  ∀ w : Word,
    (decode w = .error .unknownInstruction ↔
      w.toNat ≤ 0x00ED ∨ (0x00EF ≤ w.toNat ∧ w.toNat ≤ 0x0FFF) ∨ (0x1000 ≤ w.toNat ∧ w.toNat ≤ 0x1FFF) ∨
      (opField w = 0x5 ∧ nField w ≠ 0x0) ∨
      (opField w = 0x8 ∧ nField w ∈ [0x8, 0x9, 0xA, 0xB, 0xC, 0xD, 0xF]) ∨
      (opField w = 0x9 ∧ nField w ≠ 0x0) ∨
      (0xD000 ≤ w.toNat ∧ w.toNat ≤ 0xDFFF) ∨ (0xE000 ≤ w.toNat ∧ w.toNat ≤ 0xEFFF) ∨
      (opField w = 0xF ∧ kkField w ∉ [0x1E, 0x55, 0x65])) ∧
    (decode w = .error .unknownInstruction → ∀ (rand : Byte) (s : State), s.halted = false →
      ∃ t, dispatch w rand s = .next t ∧ EndsUnchanged .unknownInstruction s t)

/-- The words of 95_test_vectors.md DEC-OPS, written out from the templates, decode to their instructions. -/
def Obligations.SpecWordsDecode : Prop :=
  decode 0x6A42 = .ok (.ldb 0xA 0x42) ∧ decode 0x8014 = .ok (.add 0x0 0x1) ∧
  decode 0xA123 = .ok (.ldi 0x123) ∧ decode 0x00EE = .ok .ret ∧ decode 0xF265 = .ok (.ldm 0x2) ∧
  decode 0x5230 = .ok (.ser 0x2 0x3) ∧ decode 0x2123 = .ok (.call 0x123) ∧
  decode 0x00E0 = .error .unknownInstruction ∧ decode 0xF033 = .error .unknownInstruction

/-! ## Register loads and ALU (41_register_alu.md) -/

/-- R70, `6xkk`. -/
def Obligations.LdbLoadsTheByte : Prop :=
  EncodesXKK 0xF000 0x6000 .ldb ∧
  ∀ (x : RegIx) (kk : Byte) (s : State), ∃ t, exec (.ldb x kk) s = .next t ∧ EndsOk t false ∧
    t.readV x = kk ∧ SameVBut (· = x) s t ∧ SameOutsideV s t

/-- R71, `7xkk`: the sum modulo 256, no flag. -/
def Obligations.AddbAddsWithoutAFlag : Prop :=
  EncodesXKK 0xF000 0x7000 .addb ∧
  ∀ (x : RegIx) (kk : Byte) (s : State), ∃ t, exec (.addb x kk) s = .next t ∧ EndsOk t false ∧
    (t.readV x).toNat = ((s.readV x).toNat + kk.toNat) % 256 ∧ SameVBut (· = x) s t ∧ SameOutsideV s t

/-- R72, `8xy0`. -/
def Obligations.MovCopiesTheRegister : Prop :=
  EncodesXY 0xF00F 0x8000 .mov ∧
  ∀ (x y : RegIx) (s : State), ∃ t, exec (.mov x y) s = .next t ∧ EndsOk t false ∧
    t.readV x = s.readV y ∧ SameVBut (· = x) s t ∧ SameOutsideV s t

/-- R73, `8xy1`. -/
def Obligations.OrIsBitwiseOr : Prop :=
  EncodesXY 0xF00F 0x8001 .or ∧
  ∀ (x y : RegIx) (s : State), ∃ t, exec (.or x y) s = .next t ∧ EndsOk t false ∧
    t.readV x = s.readV x ||| s.readV y ∧ SameVBut (· = x) s t ∧ SameOutsideV s t

/-- R74, `8xy2`. -/
def Obligations.AndIsBitwiseAnd : Prop :=
  EncodesXY 0xF00F 0x8002 .and ∧
  ∀ (x y : RegIx) (s : State), ∃ t, exec (.and x y) s = .next t ∧ EndsOk t false ∧
    t.readV x = s.readV x &&& s.readV y ∧ SameVBut (· = x) s t ∧ SameOutsideV s t

/-- R75, `8xy3`. -/
def Obligations.XorIsBitwiseExclusiveOr : Prop :=
  EncodesXY 0xF00F 0x8003 .xor ∧
  ∀ (x y : RegIx) (s : State), ∃ t, exec (.xor x y) s = .next t ∧ EndsOk t false ∧
    t.readV x = s.readV x ^^^ s.readV y ∧ SameVBut (· = x) s t ∧ SameOutsideV s t

/-- R76, `8xy4`: sum modulo 256 in `V[x]`, carry in VF, VF the flag also when `x` is VF. -/
def Obligations.AddSetsTheCarry : Prop :=
  EncodesXY 0xF00F 0x8004 .add ∧
  ∀ (x y : RegIx) (s : State), ∃ t, exec (.add x y) s = .next t ∧ EndsOk t false ∧
    t.readV 0xF = (if (s.readV x).toNat + (s.readV y).toNat > 255 then 1 else 0) ∧
    (x ≠ 0xF → (t.readV x).toNat = ((s.readV x).toNat + (s.readV y).toNat) % 256) ∧
    SameVBut (fun r => r = x ∨ r = 0xF) s t ∧ SameOutsideV s t

/-- R77, `8xy5`: `V[x] - V[y]`, VF = 1 iff strictly greater. -/
def Obligations.SubSetsNoBorrow : Prop :=
  EncodesXY 0xF00F 0x8005 .sub ∧
  ∀ (x y : RegIx) (s : State), ∃ t, exec (.sub x y) s = .next t ∧ EndsOk t false ∧
    t.readV 0xF = (if (s.readV x).toNat > (s.readV y).toNat then 1 else 0) ∧
    (x ≠ 0xF → (t.readV x).toNat =
      if (s.readV y).toNat ≤ (s.readV x).toNat then (s.readV x).toNat - (s.readV y).toNat
      else 256 + (s.readV x).toNat - (s.readV y).toNat) ∧
    SameVBut (fun r => r = x ∨ r = 0xF) s t ∧ SameOutsideV s t

/-- R78, `8xy7`: `V[y] - V[x]`, VF = 1 iff strictly greater. -/
def Obligations.SubnSetsNoBorrow : Prop :=
  EncodesXY 0xF00F 0x8007 .subn ∧
  ∀ (x y : RegIx) (s : State), ∃ t, exec (.subn x y) s = .next t ∧ EndsOk t false ∧
    t.readV 0xF = (if (s.readV y).toNat > (s.readV x).toNat then 1 else 0) ∧
    (x ≠ 0xF → (t.readV x).toNat =
      if (s.readV x).toNat ≤ (s.readV y).toNat then (s.readV y).toNat - (s.readV x).toNat
      else 256 + (s.readV y).toNat - (s.readV x).toNat) ∧
    SameVBut (fun r => r = x ∨ r = 0xF) s t ∧ SameOutsideV s t

/-- R79, `8xy6`: half of `V[x]`, bit 0 in VF; `y` is not read. -/
def Obligations.ShrShiftsBitZeroOut : Prop :=
  EncodesXY 0xF00F 0x8006 .shr ∧
  ∀ (x y : RegIx) (s : State), ∃ t, exec (.shr x y) s = .next t ∧ EndsOk t false ∧
    (t.readV 0xF).toNat = (s.readV x).toNat % 2 ∧
    (x ≠ 0xF → (t.readV x).toNat = (s.readV x).toNat / 2) ∧
    SameVBut (fun r => r = x ∨ r = 0xF) s t ∧ SameOutsideV s t

/-- R80, `8xyE`: double of `V[x]` modulo 256, bit 7 in VF; `y` is not read. -/
def Obligations.ShlShiftsBitSevenOut : Prop :=
  EncodesXY 0xF00F 0x800E .shl ∧
  ∀ (x y : RegIx) (s : State), ∃ t, exec (.shl x y) s = .next t ∧ EndsOk t false ∧
    (t.readV 0xF).toNat = (s.readV x).toNat / 128 ∧
    (x ≠ 0xF → (t.readV x).toNat = 2 * (s.readV x).toNat % 256) ∧
    SameVBut (fun r => r = x ∨ r = 0xF) s t ∧ SameOutsideV s t

/-- R81, `Cxkk`: for every random byte at the input. -/
def Obligations.RndMasksTheRandomByte : Prop :=
  EncodesXKK 0xF000 0xC000 .rnd ∧
  ∀ (x : RegIx) (kk rand : Byte) (s : State), ∃ t, exec (.rnd x kk) (s.setRand rand) = .next t ∧
    EndsOk t false ∧ t.readV x = rand &&& kk ∧ SameVBut (· = x) s t ∧ SameOutsideV (s.setRand rand) t

/-! ## Index register (42_index.md) -/

/-- R82, `Annn`. -/
def Obligations.LdiLoadsTheIndex : Prop :=
  EncodesNNN 0xF000 0xA000 .ldi ∧
  ∀ (nnn : Imm12) (s : State), ∃ t, exec (.ldi nnn) s = .next t ∧ EndsOk t false ∧
    t.iReg.toNat = nnn.toNat ∧ SameV s t ∧ t.pc = s.pc ∧ SameStack s t ∧ SameMem s t ∧ SameRecord s t ∧
    SameInputs s t

/-- R83, `Fx1E`: the sum modulo 65536, no flag, no bounds check. -/
def Obligations.AddiAddsToTheIndex : Prop :=
  EncodesX 0xF0FF 0xF01E .addi ∧
  ∀ (x : RegIx) (s : State), ∃ t, exec (.addi x) s = .next t ∧ EndsOk t false ∧
    t.iReg.toNat = (s.iReg.toNat + (s.readV x).toNat) % 65536 ∧ SameV s t ∧ t.pc = s.pc ∧ SameStack s t ∧
    SameMem s t ∧ SameRecord s t ∧ SameInputs s t

/-! ## Skips and jump (43_skip_jump.md) -/

/-- R86, `3xkk`. -/
def Obligations.SebSkipsOnEqualByte : Prop :=
  EncodesXKK 0xF000 0x3000 .seb ∧
  ∀ (x : RegIx) (kk : Byte) (s : State), ∃ t, exec (.seb x kk) s = .next t ∧ SkipsIf (s.readV x = kk) s t

/-- R87, `4xkk`. -/
def Obligations.SnebSkipsOnDifferentByte : Prop :=
  EncodesXKK 0xF000 0x4000 .sneb ∧
  ∀ (x : RegIx) (kk : Byte) (s : State), ∃ t, exec (.sneb x kk) s = .next t ∧ SkipsIf (s.readV x ≠ kk) s t

/-- R88, `5xy0`. -/
def Obligations.SerSkipsOnEqualRegisters : Prop :=
  EncodesXY 0xF00F 0x5000 .ser ∧
  ∀ (x y : RegIx) (s : State), ∃ t, exec (.ser x y) s = .next t ∧ SkipsIf (s.readV x = s.readV y) s t

/-- R89, `9xy0`. -/
def Obligations.SnerSkipsOnDifferentRegisters : Prop :=
  EncodesXY 0xF00F 0x9000 .sner ∧
  ∀ (x y : RegIx) (s : State), ∃ t, exec (.sner x y) s = .next t ∧ SkipsIf (s.readV x ≠ s.readV y) s t

/-- R90, `Bnnn`: the target `V0 + nnn`, written as target - 1. -/
def Obligations.Jmpv0WritesTargetMinusOne : Prop :=
  EncodesNNN 0xF000 0xB000 .jmpv0 ∧
  ∀ (nnn : Imm12) (s : State), ∃ t, exec (.jmpv0 nnn) s = .next t ∧ EndsOk t false ∧
    (t.pc.toNat + 1) % 65536 = (s.readV 0x0).toNat + nnn.toNat ∧ SameOutsidePc s t

/-! ## Block transfers (44_block_memory.md) -/

/-- R92, `Fx55`: in bounds, byte `k` of the block, at `s.blockAddr k`, holds `V[k]` for every `k` up to `x`, and
every other byte is as before; out of bounds, MEMORY_BOUNDS. The premise on memory is part of the invariant. -/
def Obligations.StmStoresTheBlockOrFaults : Prop :=
  EncodesX 0xF0FF 0xF055 .stm ∧
  ∀ (x : RegIx) (s : State),
    (s.MemCanonical → s.iReg.toNat + x.toNat < 4096 → ∃ t, exec (.stm x) s = .next t ∧ EndsOk t false ∧
      (∀ k : RegIx, k.toNat ≤ x.toNat → Memory.read t.mem (s.blockAddr k.toNat) = s.readV k) ∧
      (∀ a, (∀ k, k ≤ x.toNat → a ≠ s.blockAddr k) → Memory.read t.mem a = Memory.read s.mem a) ∧
      SameV s t ∧ t.iReg = s.iReg ∧ t.pc = s.pc ∧ SameStack s t ∧ SameRecord s t ∧ SameInputs s t) ∧
    (4096 ≤ s.iReg.toNat + x.toNat → ∃ t, exec (.stm x) s = .next t ∧
      HaltsWith .memoryBounds 5 (wordXKK 0xF x 0x55) s t ∧ SameInputs s t)

/-- R93, `Fx65`: in bounds, `V[k]` holds byte `k` of the block for every `k` up to `x`, and the registers above
`V[x]` are as before; out of bounds, MEMORY_BOUNDS. -/
def Obligations.LdmLoadsTheBlockOrFaults : Prop :=
  EncodesX 0xF0FF 0xF065 .ldm ∧
  ∀ (x : RegIx) (s : State),
    (s.iReg.toNat + x.toNat < 4096 → ∃ t, exec (.ldm x) s = .next t ∧ EndsOk t false ∧
      (∀ k : RegIx, k.toNat ≤ x.toNat → t.readV k = Memory.read s.mem (s.blockAddr k.toNat)) ∧
      SameVBut (fun r => r.toNat ≤ x.toNat) s t ∧ SameOutsideV s t) ∧
    (4096 ≤ s.iReg.toNat + x.toNat → ∃ t, exec (.ldm x) s = .next t ∧
      HaltsWith .memoryBounds 5 (wordXKK 0xF x 0x65) s t ∧ SameInputs s t)

/-! ## Call and return (45_subroutine.md) -/

/-- R96 with R94, `2nnn`: with room, the old PC becomes entry `SP + 1` and PC the target minus one; without,
STACK_OVERFLOW. -/
def Obligations.CallPushesAndJumpsOrFaults : Prop :=
  EncodesNNN 0xF000 0x2000 .call ∧
  ∀ (nnn : Imm12) (s : State),
    ((s.sp.toNat + 1) % 256 ≤ 15 → ∃ t, exec (.call nnn) s = .next t ∧ EndsOk t false ∧
      t.sp.toNat = (s.sp.toNat + 1) % 256 ∧
      (∀ j : BitVec 4, t.readStack j = if j.toNat = t.sp.toNat then s.pc else s.readStack j) ∧
      (t.pc.toNat + 1) % 65536 = nnn.toNat ∧
      SameV s t ∧ t.iReg = s.iReg ∧ SameMem s t ∧ SameRecord s t ∧ SameInputs s t) ∧
    (15 < (s.sp.toNat + 1) % 256 → ∃ t, exec (.call nnn) s = .next t ∧
      HaltsWith .stackOverflow 3 (wordNNN 0x2 nnn) s t ∧ SameInputs s t)

/-- R97 with R95, `00EE`: PC is the top entry, which stays in the stack; without one, STACK_UNDERFLOW. -/
def Obligations.RetPopsOrFaults : Prop :=
  (∀ w, decode w = .ok .ret ↔ w &&& 0xFFFF = 0x00EE) ∧
  ∀ s : State,
    (∀ j : BitVec 4, s.sp.toNat = j.toNat → ∃ t, exec .ret s = .next t ∧ EndsOk t false ∧
      t.pc = s.readStack j ∧ t.sp.toNat = (s.sp.toNat + 255) % 256 ∧ (∀ k, t.readStack k = s.readStack k) ∧
      SameV s t ∧ t.iReg = s.iReg ∧ SameMem s t ∧ SameRecord s t ∧ SameInputs s t) ∧
    (15 < s.sp.toNat → ∃ t, exec .ret s = .next t ∧
      HaltsWith .stackUnderflow 4 0x00EE s t ∧ SameInputs s t)

/-- R98 (which the spec derives from R96 and R97): a CALL followed directly by a RET leaves PC and SP as they
were, with the old PC in the entry above; under the reference sequencer, with the RET at the target slot, PC
ends at the slot after the CALL. -/
def Obligations.CallAndReturnBalance : Prop :=
  ∀ (w : Word) (nnn : Imm12) (s : State), decode w = .ok (.call nnn) → s.halted = false →
    s.SpLegal → s.sp ≠ 0x0F →
    (∀ r r' : Byte, ∃ t u, dispatch w r s = .next t ∧ dispatch 0x00EE r' t = .next u ∧ u.status = .ok ∧
      u.pc = s.pc ∧ u.sp = s.sp ∧ u.readStack (BitVec.ofNat 4 (s.sp.toNat + 1)) = s.pc) ∧
    (s.status = .ok → s.prog[s.pc.toNat]? = some w → s.prog[nnn.toNat]? = some 0x00EE →
      ∃ t u, step s = .next t ∧ step t = .next u ∧ u.status = .ok ∧ u.pc = s.pc + 1 ∧ u.sp = s.sp)

/-! ## The ALU as a whole -/

/-- 41_register_alu.md R68: the minor opcode `N` of an `8xyN` word selects the ALU function, and a word whose
`N` selects none is unknown. -/
def Obligations.MinorOpcodeSelectsTheAluFunction : Prop :=
  ∀ (x y : RegIx) (n : BitVec 4),
    (∀ f, aluSelect n = some f → ∃ i, decode (wordXYN 0x8 x y n) = .ok i ∧ ∀ s, exec i s = aluOp f x y s) ∧
    (aluSelect n = none → decode (wordXYN 0x8 x y n) = .error .unknownInstruction)

/-- 41_register_alu.md R69: for each flag-setting instruction the flag and the result come from the operands
before the instruction, the flag is 0 or 1, and it is written last, so VF holds it also when `x` is VF. -/
def Obligations.FlagIsWrittenLast : Prop :=
  ∀ (x y : RegIx) (s : State) (i : Instr) (f : AluFn),
    (i, f) ∈ [(Instr.add x y, AluFn.add), (.sub x y, .sub), (.subn x y, .subn), (.shr x y, .shr),
      (.shl x y, .shl)] →
    ∃ t flag, exec i s = .next t ∧ aluFlag f (s.readV x) (s.readV y) = some flag ∧ (flag = 0 ∨ flag = 1) ∧
      t.readV 0xF = flag ∧ (x ≠ 0xF → t.readV x = aluResult f (s.readV x) (s.readV y)) ∧
      SameVBut (fun r => r = x ∨ r = 0xF) s t ∧ SameOutsideV s t

/-- 95_test_vectors.md S8: a right shift then a left shift restores an even value, a left shift then a right
shift restores a value with bit 7 clear, in every register but VF, and VF ends 0. -/
def Obligations.ShiftsUndoEachOther : Prop :=
  ∀ (x y y' : RegIx) (s : State), x ≠ 0xF →
    ((s.readV x).toNat % 2 = 0 → ∃ t u, exec (.shr x y) s = .next t ∧ exec (.shl x y') t = .next u ∧
      u.readV x = s.readV x ∧ t.readV 0xF = 0 ∧ u.readV 0xF = 0) ∧
    ((s.readV x).toNat < 128 → ∃ t u, exec (.shl x y) s = .next t ∧ exec (.shr x y') t = .next u ∧
      u.readV x = s.readV x ∧ t.readV 0xF = 0 ∧ u.readV 0xF = 0)

/-- 95_test_vectors.md S10: a block store then a block load at the same I and x leaves every V register and
memory's canonical form as they were. -/
def Obligations.StoreThenLoadIsIdempotent : Prop :=
  ∀ (x : RegIx) (s : State), s.MemCanonical → s.iReg.toNat + x.toNat < 4096 →
    ∃ t u, exec (.stm x) s = .next t ∧ exec (.ldm x) t = .next u ∧ SameV s u ∧ u.iReg = s.iReg ∧
      u.mem = t.mem ∧ u.MemCanonical

/-! ## Dispatch and faults -/

/-- 30_encoding.md R60: halted, the dispatch is refused before decode; an unknown word changes no state;
otherwise the instruction's effect runs, once, with the random byte at the input, and ends OK or in a raise. -/
def Obligations.DispatchRefusesOrRunsOneEffect : Prop :=
  ∀ (w : Word) (rand : Byte) (s : State),
    (s.halted = true → ∃ t, dispatch w rand s = .next t ∧ EndsUnchanged .halted s t) ∧
    (s.halted = false → decode w = .error .unknownInstruction →
      ∃ t, dispatch w rand s = .next t ∧ EndsUnchanged .unknownInstruction s t) ∧
    (∀ i, s.halted = false → decode w = .ok i →
      ∃ t, dispatch w rand s = .next t ∧ exec i (s.setRand rand) = .next t ∧
        (t.status = .ok ∨ (t.status.haltsBlock = true ∧ HaltsWith t.status t.status.code w s t)))

/-- 60_exceptions.md R108: a dispatch that reports a halting fault has entered it: the record holds the fault's
code, the dispatched word and PC, `SKIP` is 0, and nothing else changes. -/
def Obligations.HaltingFaultEntryWritesTheRecord : Prop :=
  ∀ (w : Word) (rand : Byte) (s t : State), dispatch w rand s = .next t → t.status.haltsBlock = true →
    HaltsWith t.status t.status.code w s t ∧
    (t.status, t.faultCode) ∈ [(Status.stackOverflow, (3 : Byte)), (.stackUnderflow, 4), (.memoryBounds, 5)] ∧
    SameInputs (s.setRand rand) t

/-- 60_exceptions.md R110: after any dispatch, of a word or a text, that reports a status other than OK the
architectural state is as before, and the fault record too unless the fault halts the block. -/
def Obligations.EveryFaultIsPrecise : Prop :=
  ∀ (tr : Transaction) (s t : State), (∃ rand, (∃ w, tr = .dispatch w rand) ∨ (∃ x, tr = .dispatchText x rand)) →
    transact tr s = .next t → t.status ≠ .ok →
    SameArch s t ∧ (t.status.haltsBlock = false → SameRecord s t)

/-- 60_exceptions.md R111: the checks run in the order text format, halted, decode, the instruction's own check,
of which each instruction has at most one. -/
def Obligations.ChecksRunInPriorityOrder : Prop :=
  ∀ (text : List Char) (rand : Byte) (s : State),
    (∀ e, parseWord text = .error e →
      ∃ t, dispatchText text rand s = .next t ∧ EndsUnchanged .malformedInstruction s t) ∧
    (∀ w, parseWord text = .ok w → s.halted = true →
      ∃ t, dispatchText text rand s = .next t ∧ EndsUnchanged .halted s t) ∧
    (∀ w, parseWord text = .ok w → s.halted = false → decode w = .error .unknownInstruction →
      ∃ t, dispatchText text rand s = .next t ∧ EndsUnchanged .unknownInstruction s t) ∧
    (∀ w i, parseWord text = .ok w → s.halted = false → decode w = .ok i →
      ∃ t, dispatchText text rand s = .next t ∧
        (t.status = .ok ∨ (t.status = .stackOverflow ∧ ∃ nnn, i = .call nnn) ∨
          (t.status = .stackUnderflow ∧ i = .ret) ∨
          (t.status = .memoryBounds ∧ ∃ x, i = .stm x ∨ i = .ldm x)))

/-- 10_state.md R26: a text is accepted iff it has exactly four characters, each a hex digit, case ignored, and
its word is the numeral's value; an accepted text has the effect of the dispatch of its word (30_encoding.md R60);
any other text is refused with no state change. -/
def Obligations.TextFrontEndReadsFourHexDigits : Prop :=
  (∀ c : Char,
    (48 ≤ c.toNat ∧ c.toNat ≤ 57 → (hexDigit c).map BitVec.toNat = some (c.toNat - 48)) ∧
    (65 ≤ c.toNat ∧ c.toNat ≤ 70 → (hexDigit c).map BitVec.toNat = some (c.toNat - 65 + 10)) ∧
    (97 ≤ c.toNat ∧ c.toNat ≤ 102 → (hexDigit c).map BitVec.toNat = some (c.toNat - 97 + 10)) ∧
    ((hexDigit c).isSome = true → (48 ≤ c.toNat ∧ c.toNat ≤ 57) ∨ (65 ≤ c.toNat ∧ c.toNat ≤ 70) ∨
      (97 ≤ c.toNat ∧ c.toNat ≤ 102))) ∧
  (∀ (a b c d : Char) (p q m n : BitVec 4), hexDigit a = some p → hexDigit b = some q → hexDigit c = some m →
    hexDigit d = some n → ∃ w, parseWord [a, b, c, d] = .ok w ∧
      w.toNat = p.toNat * 0x1000 + q.toNat * 0x100 + m.toNat * 0x10 + n.toNat) ∧
  (∀ (text : List Char) (w : Word), parseWord text = .ok w → ∀ (rand : Byte) (s : State),
    dispatchText text rand s = dispatch w rand s) ∧
  (∀ text : List Char, (text.length ≠ 4 ∨ ∃ c ∈ text, hexDigit c = none) → ∀ (rand : Byte) (s : State),
    ∃ t, dispatchText text rand s = .next t ∧ EndsUnchanged .malformedInstruction s t)

/-- 10_state.md R29: SKIP is 1 after a dispatch iff the word is a skip instruction whose condition held on a
block that was not halted, and then PC has advanced by 1. -/
def Obligations.SkipOutputIsExactlyATakenSkip : Prop :=
  ∀ (w : Word) (rand : Byte) (s t : State), dispatch w rand s = .next t →
    (t.skip = true ↔ s.halted = false ∧
      ((∃ x kk, decode w = .ok (.seb x kk) ∧ s.readV x = kk) ∨
       (∃ x kk, decode w = .ok (.sneb x kk) ∧ s.readV x ≠ kk) ∨
       (∃ x y, decode w = .ok (.ser x y) ∧ s.readV x = s.readV y) ∨
       (∃ x y, decode w = .ok (.sner x y) ∧ s.readV x ≠ s.readV y))) ∧
    (t.skip = true → t.pc.toNat = (s.pc.toNat + 1) % 65536)

/-- 10_state.md R21, 60_exceptions.md R106, R112: no transaction but the reset input changes the fault record of
a halted block, and on a running block only the entry into a halting fault writes it. -/
def Obligations.OnlyResetClearsTheFaultRecord : Prop :=
  ∀ (tr : Transaction) (s t : State), tr ≠ .reset → transact tr s = .next t →
    (s.halted = true → SameRecord s t) ∧
    (s.halted = false → SameRecord s t ∨
      (t.halted = true ∧ t.status.haltsBlock = true ∧ t.faultCode = t.status.code ∧ t.faultPc = s.pc))

/-- 00_scope.md R5: every transaction, from every state, is one transition to a next state. -/
def Obligations.EveryTransactionAnswersANextState : Prop :=
  ∀ (tr : Transaction) (s : State), ∃ t, transact tr s = .next t

/-! ## Whole-machine rules -/

/-- 10_state.md R13, R16, R17, R18, 20_memory.md R34: each part of the state is changed only by the instructions
the spec names for it, and no instruction changes the inputs. -/
def Obligations.EachRegisterHasOnlyItsWriters : Prop :=
  ∀ (i : Instr) (s t : State), exec i s = .next t →
    (¬ SameV s t → i.mnemonic ∈
      [.LDB, .ADDB, .MOV, .OR, .AND, .XOR, .ADD, .SUB, .SUBN, .SHR, .SHL, .RND, .LDM]) ∧
    (t.iReg ≠ s.iReg → i.mnemonic ∈ [.LDI, .ADDI]) ∧
    (t.pc ≠ s.pc → i.mnemonic ∈ [.SEB, .SNEB, .SER, .SNER, .JMPV0, .CALL, .RET]) ∧
    (t.stack ≠ s.stack → i.mnemonic = .CALL) ∧
    (t.sp ≠ s.sp → i.mnemonic ∈ [.CALL, .RET]) ∧
    (t.mem ≠ s.mem → i.mnemonic = .STM) ∧
    SameInputs s t

/-- 20_memory.md R34 (which the spec derives from the instruction rules): an instruction other than the two
block transfers neither reads nor writes memory: over another memory it does the same. -/
def Obligations.OnlyBlockTransfersReachMemory : Prop :=
  ∀ (i : Instr) (m : Memory) (s t : State), i.mnemonic ≠ .STM → i.mnemonic ≠ .LDM →
    exec i s = .next t → t.mem = s.mem ∧ exec i (s.writeMem m) = .next (t.writeMem m)

/-- 10_state.md R25: only `Cxkk` reads the random byte: with another one, every other instruction does the same.
-/
def Obligations.OnlyRndReadsTheRandomByte : Prop :=
  ∀ (i : Instr) (rand : Byte) (s t : State), i.mnemonic ≠ .RND →
    exec i s = .next t → exec i (s.setRand rand) = .next (t.setRand rand)

/-- 10_state.md R27: a port write puts its value at its place and changes nothing else of the block's state; the
port reads each register, byte and fault record field as it stands, and a port read changes nothing. That a port
access leaves STATUS and SKIP as they are is the model's choice (log 2), as is memory's canonical form (log 6). -/
def Obligations.PortWritesOnlyItsPlace : Prop :=
  ∀ s : State,
    (∀ p : PortWrite, ∃ t, transact (.portWrite p) s = .next t ∧ PortWrites p s t ∧
      t.status = s.status ∧ t.skip = s.skip) ∧
    (∀ p : PortWrite, s.MemCanonical → ∃ t, transact (.portWrite p) s = .next t ∧
      portRead (portPlaceOf p) t = portValueOf p ∧
      (∀ q, q ≠ portPlaceOf p → portRead q t = portRead q s) ∧
      t.status = s.status ∧ t.skip = s.skip ∧ SameInputs s t ∧ t.MemCanonical) ∧
    (∀ q : PortPlace, transact (.portRead q) s = .next s) ∧
    (∀ x, portRead (.v x) s = (s.readV x).toNat) ∧ portRead .i s = s.iReg.toNat ∧
    portRead .pc s = s.pc.toNat ∧ portRead .sp s = s.sp.toNat ∧
    (∀ j, portRead (.stack j) s = (s.readStack j).toNat) ∧
    (∀ a, portRead (.mem a) s = (Memory.read s.mem a.val).toNat) ∧
    portRead .halted s = (if s.halted = true then 1 else 0) ∧ portRead .faultCode s = s.faultCode.toNat ∧
    portRead .faultWord s = s.faultWord.toNat ∧ portRead .faultPc s = s.faultPc.toNat

/-- Equal memories are equal data: canonical memories that read alike everywhere are the same list. -/
def Obligations.CanonicalMemoriesThatReadAlikeAreEqual : Prop :=
  ∀ m n : Memory, Memory.wf m = true → Memory.wf n = true →
    (∀ a, Memory.read m a = Memory.read n a) → m = n

/-! ## The reference sequencer (70_reset_and_hazards.md R121 to R124) -/

/-- R122: a step on a running sequencer with a word at PC draws one byte, the next of RANDS while one is listed
(past the list the free value of log 3), and dispatches the word: one that decodes is that instruction's effect
with the drawn byte at the input, and PC advanced by 1 iff the status is OK; one that does not decode reports
UNKNOWN_INSTRUCTION with `SKIP` 0 and changes no state of the block, PC included, and a halted block refuses every
word the same way (R121 items 3 and 4). -/
def Obligations.StepRunsTheDecodedInstruction : Prop :=
  ∀ (s : State) (w : Word), s.status = .ok → s.prog[s.pc.toNat]? = some w →
    (∀ r rs, s.rands = r :: rs → s.drawn = r) ∧ (s.rands = [] → s.drawn = Config.randDraw s.draws) ∧
    (∀ i, s.halted = false → decode w = .ok i →
      step s = (match exec i { s with rand := s.drawn, rands := s.rands.tail, draws := s.draws + 1 } with
        | .next t => .next (if t.status = .ok then t.writePc (t.pc + 1) else t)
        | .fault r => .fault r
        | .refused r => .refused r)) ∧
    (s.halted = false → decode w = .error .unknownInstruction →
      ∃ t, step s = .next t ∧ EndsUnchanged .unknownInstruction s t) ∧
    (s.halted = true → ∃ t, step s = .next t ∧ EndsUnchanged .halted s t)

/-- The host's fetch, the model's choice of log 12: after `withFetchWord` the next step runs the instruction the
decoder reads from that word. -/
def Obligations.StepRunsTheFetchWord : Prop :=
  ∀ (s : State) (nbits w : Nat) (i : Instr), s.halted = false → decodeTableWord nbits w = some i →
    ∃ t, exec i ((s.withFetchWord nbits w).afterDraw.setRand s.drawn) = .next t ∧
      step (s.withFetchWord nbits w) = .next (if t.status = .ok then t.writePc (t.pc + 1) else t)

/-- R123: the run ends exactly when the last status is not OK, or PC names no slot; a step is never refused.
That the two ends are faults of the step that follows the last dispatch is the model's choice (log 1 and 2). -/
def Obligations.StepStopsExactlyAtTheEndOfARun : Prop :=
  ∀ s : State,
    (∀ f, step s = .fault f ↔
      (s.status ≠ .ok ∧ f = .stoppedOnStatus s.status) ∨
      (s.status = .ok ∧ s.prog.length ≤ s.pc.toNat ∧ f = .endOfProgram)) ∧
    (∀ r, step s ≠ .refused r)

/-- R124 with 43_skip_jump.md R84 and R85: under the sequencer a jump and a call land on their targets, a return
resumes after the saved slot, and every other instruction that reports OK moves PC two slots on a taken skip and
one slot otherwise. -/
def Obligations.ControlTransfersLandOnTheirTargets : Prop :=
  ∀ (s : State) (w : Word) (i : Instr), s.status = .ok → s.halted = false → s.prog[s.pc.toNat]? = some w →
    decode w = .ok i →
    (∀ nnn, i = .jmpv0 nnn → ∃ t, step s = .next t ∧ t.pc.toNat = (s.readV 0x0).toNat + nnn.toNat) ∧
    (∀ nnn, i = .call nnn → s.SpLegal → s.sp ≠ 0x0F → ∃ t, step s = .next t ∧ t.pc.toNat = nnn.toNat) ∧
    (∀ j : BitVec 4, i = .ret → s.sp.toNat = j.toNat → ∃ t, step s = .next t ∧ t.pc = s.readStack j + 1) ∧
    (i.mnemonic ∉ [.JMPV0, .CALL, .RET] → ∃ t, step s = .next t ∧
      (t.status = .ok → t.pc = s.pc + (if t.skip = true then 2 else 1)) ∧ (t.status ≠ .ok → t.pc = s.pc))

/-- R122, 20_memory.md R46: no step changes the program, and each takes one draw. -/
def Obligations.NoStepChangesTheProgram : Prop :=
  ∀ s t : State, step s = .next t → t.prog = s.prog ∧ t.draws = s.draws + 1 ∧ t.rands = s.rands.tail

/-! ## The assembler (30_encoding.md R63 to R65) -/

/-- R64: the line that writes an instruction is accepted and becomes its word; a line whose operands do not fit
is refused, and an accepted line is one word that decodes. -/
def Obligations.AssemblerWritesTheEncoding : Prop :=
  (∀ i : Instr, assemble (asmLine i) = some (encode i)) ∧
  (∀ l : AsmLine, l.wellFormed = false → assemble l = none) ∧
  (∀ l : AsmLine, l.wellFormed = true → ∃ i, assemble l = some (encode i) ∧ asmLine i = l)
end

