-- ==== Sys2Proof/Laws/Decode.lean ====
section
/-! SUPPORT. The fields of a built word, and what a mask of the instruction table says about the fields. -/

namespace Sys2Proof

/-! ## Fields of a word built from its digits -/

@[simp] theorem opField_wordOfDigits (a b c d : BitVec 4) : opField (wordOfDigits a b c d) = a := by
  unfold opField wordOfDigits
  ext i hi
  simp only [BitVec.getElem_extractLsb', BitVec.getLsbD_append]
  interval_cases i <;> simp [BitVec.getLsbD_eq_getElem]

@[simp] theorem xField_wordOfDigits (a b c d : BitVec 4) : xField (wordOfDigits a b c d) = b := by
  unfold xField wordOfDigits
  ext i hi
  simp only [BitVec.getElem_extractLsb', BitVec.getLsbD_append]
  interval_cases i <;> simp [BitVec.getLsbD_eq_getElem]

@[simp] theorem yField_wordOfDigits (a b c d : BitVec 4) : yField (wordOfDigits a b c d) = c := by
  unfold yField wordOfDigits
  ext i hi
  simp only [BitVec.getElem_extractLsb', BitVec.getLsbD_append]
  interval_cases i <;> simp [BitVec.getLsbD_eq_getElem]

@[simp] theorem nField_wordOfDigits (a b c d : BitVec 4) : nField (wordOfDigits a b c d) = d := by
  unfold nField wordOfDigits
  ext i hi
  simp only [BitVec.getElem_extractLsb', BitVec.getLsbD_append]
  interval_cases i <;> simp [BitVec.getLsbD_eq_getElem]

/-- A word is the word of its four digits. -/
theorem wordOfDigits_fields (w : Word) : wordOfDigits (opField w) (xField w) (yField w) (nField w) = w := by
  unfold opField xField yField nField wordOfDigits
  apply BitVec.eq_of_getLsbD_eq
  intro i hi
  simp only [BitVec.getLsbD_append, BitVec.getLsbD_extractLsb']
  interval_cases i <;> simp

/-- Two words with the same digits are equal. -/
theorem word_eq_of_digits {w u : Word} (h3 : opField w = opField u) (h2 : xField w = xField u)
    (h1 : yField w = yField u) (h0 : nField w = nField u) : w = u := by
  rw [← wordOfDigits_fields w, ← wordOfDigits_fields u, h3, h2, h1, h0]

/-- The field `kk` is the two digits `W[7:4]` and `W[3:0]`. -/
theorem kkField_digits (w : Word) : kkField w = (yField w ++ nField w : BitVec (4 + 4)) := by
  unfold kkField yField nField
  apply BitVec.eq_of_getLsbD_eq
  intro i hi
  simp only [BitVec.getLsbD_append, BitVec.getLsbD_extractLsb']
  interval_cases i <;> simp

/-- The field `nnn` is the three digits `W[11:8]`, `W[7:4]` and `W[3:0]`. -/
theorem nnnField_digits (w : Word) : nnnField w = (xField w ++ yField w ++ nField w : BitVec (4 + 4 + 4)) := by
  unfold nnnField xField yField nField
  apply BitVec.eq_of_getLsbD_eq
  intro i hi
  simp only [BitVec.getLsbD_append, BitVec.getLsbD_extractLsb']
  interval_cases i <;> simp

/-! ## Fields of a word built in a format -/

@[simp] theorem opField_wordXKK (o x : BitVec 4) (kk : Byte) : opField (wordXKK o x kk) = o := by
  unfold opField wordXKK
  ext i hi
  simp only [BitVec.getElem_extractLsb', BitVec.getLsbD_append]
  interval_cases i <;> simp [BitVec.getLsbD_eq_getElem]

@[simp] theorem xField_wordXKK (o x : BitVec 4) (kk : Byte) : xField (wordXKK o x kk) = x := by
  unfold xField wordXKK
  ext i hi
  simp only [BitVec.getElem_extractLsb', BitVec.getLsbD_append]
  interval_cases i <;> simp [BitVec.getLsbD_eq_getElem]

@[simp] theorem kkField_wordXKK (o x : BitVec 4) (kk : Byte) : kkField (wordXKK o x kk) = kk := by
  unfold kkField wordXKK
  ext i hi
  simp only [BitVec.getElem_extractLsb', BitVec.getLsbD_append]
  interval_cases i <;> simp [BitVec.getLsbD_eq_getElem]

@[simp] theorem opField_wordNNN (o : BitVec 4) (nnn : Imm12) : opField (wordNNN o nnn) = o := by
  unfold opField wordNNN
  ext i hi
  simp only [BitVec.getElem_extractLsb', BitVec.getLsbD_append]
  interval_cases i <;> simp [BitVec.getLsbD_eq_getElem]

@[simp] theorem nnnField_wordNNN (o : BitVec 4) (nnn : Imm12) : nnnField (wordNNN o nnn) = nnn := by
  unfold nnnField wordNNN
  ext i hi
  simp only [BitVec.getElem_extractLsb', BitVec.getLsbD_append]
  interval_cases i <;> simp [BitVec.getLsbD_eq_getElem]

@[simp] theorem opField_wordXYN (o x y n : BitVec 4) : opField (wordXYN o x y n) = o :=
  opField_wordOfDigits o x y n

@[simp] theorem xField_wordXYN (o x y n : BitVec 4) : xField (wordXYN o x y n) = x :=
  xField_wordOfDigits o x y n

@[simp] theorem yField_wordXYN (o x y n : BitVec 4) : yField (wordXYN o x y n) = y :=
  yField_wordOfDigits o x y n

@[simp] theorem nField_wordXYN (o x y n : BitVec 4) : nField (wordXYN o x y n) = n :=
  nField_wordOfDigits o x y n

/-- A word is the `XKK` word of its fields. -/
theorem wordXKK_fields (w : Word) : wordXKK (opField w) (xField w) (kkField w) = w := by
  unfold opField xField kkField wordXKK
  apply BitVec.eq_of_getLsbD_eq
  intro i hi
  simp only [BitVec.getLsbD_append, BitVec.getLsbD_extractLsb']
  interval_cases i <;> simp

/-- A word is the `XYN` word of its fields. -/
theorem wordXYN_fields (w : Word) : wordXYN (opField w) (xField w) (yField w) (nField w) = w :=
  wordOfDigits_fields w

/-- A word is the `NNN` word of its fields. -/
theorem wordNNN_fields (w : Word) : wordNNN (opField w) (nnnField w) = w := by
  unfold opField nnnField wordNNN
  apply BitVec.eq_of_getLsbD_eq
  intro i hi
  simp only [BitVec.getLsbD_append, BitVec.getLsbD_extractLsb']
  interval_cases i <;> simp

/-- The major opcode as a number. -/
theorem opField_toNat (w : Word) : (opField w).toNat = w.toNat / 4096 := by
  have := w.isLt
  simp only [opField, BitVec.extractLsb'_toNat, Nat.shiftRight_eq_div_pow]
  omega

/-- The minor opcode as a number. -/
theorem nField_toNat (w : Word) : (nField w).toNat = w.toNat % 16 := by
  simp [nField, BitVec.extractLsb'_toNat]

/-- The field `kk` as a number. -/
theorem kkField_toNat (w : Word) : (kkField w).toNat = w.toNat % 256 := by
  simp [kkField, BitVec.extractLsb'_toNat]

/-- The word of four digits as a number (10_state.md R26). -/
theorem wordOfDigits_toNat (a b c d : BitVec 4) :
    (wordOfDigits a b c d).toNat = a.toNat * 4096 + b.toNat * 256 + c.toNat * 16 + d.toNat := by
  have ha := a.isLt; have hb := b.isLt; have hc := c.isLt; have hd := d.isLt
  unfold wordOfDigits
  simp only [BitVec.toNat_append]
  rw [← Nat.shiftLeft_add_eq_or_of_lt hb, ← Nat.shiftLeft_add_eq_or_of_lt hc,
    ← Nat.shiftLeft_add_eq_or_of_lt hd]
  simp only [Nat.shiftLeft_eq]
  omega

/-! ## Masks -/

/-- Masking with a word of digits masks each digit. -/
theorem wordOfDigits_and (a b c d a' b' c' d' : BitVec 4) :
    wordOfDigits a b c d &&& wordOfDigits a' b' c' d' =
      wordOfDigits (a &&& a') (b &&& b') (c &&& c') (d &&& d') := by
  unfold wordOfDigits
  apply BitVec.eq_of_getLsbD_eq
  intro i hi
  simp only [BitVec.getLsbD_and, BitVec.getLsbD_append]
  interval_cases i <;> simp

/-- Two words of digits are equal iff the digits are. -/
theorem wordOfDigits_inj (a b c d a' b' c' d' : BitVec 4) :
    wordOfDigits a b c d = wordOfDigits a' b' c' d' ↔ a = a' ∧ b = b' ∧ c = c' ∧ d = d' := by
  constructor
  · intro h
    refine ⟨?_, ?_, ?_, ?_⟩
    · simpa using congrArg opField h
    · simpa using congrArg xField h
    · simpa using congrArg yField h
    · simpa using congrArg nField h
  · rintro ⟨rfl, rfl, rfl, rfl⟩
    rfl

/-- A masked word, digit by digit. -/
theorem and_eq_wordOfDigits (w : Word) (m3 m2 m1 m0 p3 p2 p1 p0 : BitVec 4) :
    w &&& wordOfDigits m3 m2 m1 m0 = wordOfDigits p3 p2 p1 p0 ↔
      opField w &&& m3 = p3 ∧ xField w &&& m2 = p2 ∧ yField w &&& m1 = p1 ∧ nField w &&& m0 = p0 := by
  conv_lhs => rw [← wordOfDigits_fields w]
  rw [wordOfDigits_and, wordOfDigits_inj]

theorem and_fifteen (a : BitVec 4) : a &&& 0xF#4 = a := BitVec.and_allOnes

theorem and_zero (a : BitVec 4) : a &&& 0x0#4 = 0x0#4 := BitVec.and_zero

/-- The mask 0xF000 tests the major opcode. -/
theorem and_F000 (w : Word) (o : BitVec 4) :
    w &&& 0xF000#16 = wordOfDigits o 0x0 0x0 0x0 ↔ opField w = o := by
  have := and_eq_wordOfDigits w 0xF 0x0 0x0 0x0 o 0x0 0x0 0x0
  rw [show (0xF000#16 : Word) = wordOfDigits 0xF 0x0 0x0 0x0 from rfl, this]
  simp [and_fifteen]

/-- The mask 0xF00F tests the major and the minor opcode. -/
theorem and_F00F (w : Word) (o n : BitVec 4) :
    w &&& 0xF00F#16 = wordOfDigits o 0x0 0x0 n ↔ opField w = o ∧ nField w = n := by
  have := and_eq_wordOfDigits w 0xF 0x0 0x0 0xF o 0x0 0x0 n
  rw [show (0xF00F#16 : Word) = wordOfDigits 0xF 0x0 0x0 0xF from rfl, this]
  simp [and_fifteen]

/-- The mask 0xF0FF tests the major opcode and the last two digits. -/
theorem and_F0FF (w : Word) (o a b : BitVec 4) :
    w &&& 0xF0FF#16 = wordOfDigits o 0x0 a b ↔ opField w = o ∧ yField w = a ∧ nField w = b := by
  have := and_eq_wordOfDigits w 0xF 0x0 0xF 0xF o 0x0 a b
  rw [show (0xF0FF#16 : Word) = wordOfDigits 0xF 0x0 0xF 0xF from rfl, this]
  simp [and_fifteen]

/-- The field `kk` is given by its two digits. -/
theorem kkField_eq_iff (w : Word) (a b : BitVec 4) :
    kkField w = (a ++ b : BitVec (4 + 4)) ↔ yField w = a ∧ nField w = b := by
  constructor
  · intro h
    have hw := wordXKK_fields w
    rw [h] at hw
    have e : wordXKK (opField w) (xField w) (a ++ b : BitVec (4 + 4))
        = wordOfDigits (opField w) (xField w) a b := by
      unfold wordXKK wordOfDigits
      apply BitVec.eq_of_getLsbD_eq
      intro i hi
      simp only [BitVec.getLsbD_append]
      interval_cases i <;> simp
    rw [e] at hw
    exact ⟨by rw [← hw]; simp, by rw [← hw]; simp⟩
  · rintro ⟨rfl, rfl⟩
    exact kkField_digits w

/-! ## Building a table -/

/-- A table is free of collisions iff no two of its places hold templates that collide. -/
theorem collisionFree_iff (ts : List Template) :
    collisionFree ts = true ↔ ts.Pairwise (fun a b => templatesCollide a b = false) := by
  induction ts with
  | nil => simp [collisionFree]
  | cons t ts ih => simp [collisionFree, ih]

end Sys2Proof
end

