-- ==== Sys2Proof/Laws/State.lean ====
section
/-! SUPPORT. One lemma per field per state update, true by rfl, so that no proof unfolds a record update; the
read-after-write laws of the register file and the stack; the fields of reset. -/

namespace Sys2Proof.Machine

/-! ### `writeV` -/

@[simp] theorem State.writeV_v (s : State) (x : RegIx) (b : Byte) : (s.writeV x b).v = s.v.set x.toNat b x.isLt := rfl
@[simp] theorem State.writeV_iReg (s : State) (x : RegIx) (b : Byte) : (s.writeV x b).iReg = s.iReg := rfl
@[simp] theorem State.writeV_pc (s : State) (x : RegIx) (b : Byte) : (s.writeV x b).pc = s.pc := rfl
@[simp] theorem State.writeV_stack (s : State) (x : RegIx) (b : Byte) : (s.writeV x b).stack = s.stack := rfl
@[simp] theorem State.writeV_sp (s : State) (x : RegIx) (b : Byte) : (s.writeV x b).sp = s.sp := rfl
@[simp] theorem State.writeV_mem (s : State) (x : RegIx) (b : Byte) : (s.writeV x b).mem = s.mem := rfl
@[simp] theorem State.writeV_halted (s : State) (x : RegIx) (b : Byte) : (s.writeV x b).halted = s.halted := rfl
@[simp] theorem State.writeV_faultCode (s : State) (x : RegIx) (b : Byte) : (s.writeV x b).faultCode = s.faultCode := rfl
@[simp] theorem State.writeV_faultWord (s : State) (x : RegIx) (b : Byte) : (s.writeV x b).faultWord = s.faultWord := rfl
@[simp] theorem State.writeV_faultPc (s : State) (x : RegIx) (b : Byte) : (s.writeV x b).faultPc = s.faultPc := rfl
@[simp] theorem State.writeV_rand (s : State) (x : RegIx) (b : Byte) : (s.writeV x b).rand = s.rand := rfl
@[simp] theorem State.writeV_status (s : State) (x : RegIx) (b : Byte) : (s.writeV x b).status = s.status := rfl
@[simp] theorem State.writeV_skip (s : State) (x : RegIx) (b : Byte) : (s.writeV x b).skip = s.skip := rfl
@[simp] theorem State.writeV_prog (s : State) (x : RegIx) (b : Byte) : (s.writeV x b).prog = s.prog := rfl
@[simp] theorem State.writeV_rands (s : State) (x : RegIx) (b : Byte) : (s.writeV x b).rands = s.rands := rfl
@[simp] theorem State.writeV_draws (s : State) (x : RegIx) (b : Byte) : (s.writeV x b).draws = s.draws := rfl
@[simp] theorem State.writeV_readStack (s : State) (x : RegIx) (b : Byte) (k' : BitVec 4) : (s.writeV x b).readStack k' = s.readStack k' := rfl

/-! ### `writeI` -/

@[simp] theorem State.writeI_v (s : State) (w : Word) : (s.writeI w).v = s.v := rfl
@[simp] theorem State.writeI_iReg (s : State) (w : Word) : (s.writeI w).iReg = w := rfl
@[simp] theorem State.writeI_pc (s : State) (w : Word) : (s.writeI w).pc = s.pc := rfl
@[simp] theorem State.writeI_stack (s : State) (w : Word) : (s.writeI w).stack = s.stack := rfl
@[simp] theorem State.writeI_sp (s : State) (w : Word) : (s.writeI w).sp = s.sp := rfl
@[simp] theorem State.writeI_mem (s : State) (w : Word) : (s.writeI w).mem = s.mem := rfl
@[simp] theorem State.writeI_halted (s : State) (w : Word) : (s.writeI w).halted = s.halted := rfl
@[simp] theorem State.writeI_faultCode (s : State) (w : Word) : (s.writeI w).faultCode = s.faultCode := rfl
@[simp] theorem State.writeI_faultWord (s : State) (w : Word) : (s.writeI w).faultWord = s.faultWord := rfl
@[simp] theorem State.writeI_faultPc (s : State) (w : Word) : (s.writeI w).faultPc = s.faultPc := rfl
@[simp] theorem State.writeI_rand (s : State) (w : Word) : (s.writeI w).rand = s.rand := rfl
@[simp] theorem State.writeI_status (s : State) (w : Word) : (s.writeI w).status = s.status := rfl
@[simp] theorem State.writeI_skip (s : State) (w : Word) : (s.writeI w).skip = s.skip := rfl
@[simp] theorem State.writeI_prog (s : State) (w : Word) : (s.writeI w).prog = s.prog := rfl
@[simp] theorem State.writeI_rands (s : State) (w : Word) : (s.writeI w).rands = s.rands := rfl
@[simp] theorem State.writeI_draws (s : State) (w : Word) : (s.writeI w).draws = s.draws := rfl
@[simp] theorem State.writeI_readV (s : State) (w : Word) (r : RegIx) : (s.writeI w).readV r = s.readV r := rfl
@[simp] theorem State.writeI_readStack (s : State) (w : Word) (k' : BitVec 4) : (s.writeI w).readStack k' = s.readStack k' := rfl

/-! ### `writePc` -/

@[simp] theorem State.writePc_v (s : State) (w : Word) : (s.writePc w).v = s.v := rfl
@[simp] theorem State.writePc_iReg (s : State) (w : Word) : (s.writePc w).iReg = s.iReg := rfl
@[simp] theorem State.writePc_pc (s : State) (w : Word) : (s.writePc w).pc = w := rfl
@[simp] theorem State.writePc_stack (s : State) (w : Word) : (s.writePc w).stack = s.stack := rfl
@[simp] theorem State.writePc_sp (s : State) (w : Word) : (s.writePc w).sp = s.sp := rfl
@[simp] theorem State.writePc_mem (s : State) (w : Word) : (s.writePc w).mem = s.mem := rfl
@[simp] theorem State.writePc_halted (s : State) (w : Word) : (s.writePc w).halted = s.halted := rfl
@[simp] theorem State.writePc_faultCode (s : State) (w : Word) : (s.writePc w).faultCode = s.faultCode := rfl
@[simp] theorem State.writePc_faultWord (s : State) (w : Word) : (s.writePc w).faultWord = s.faultWord := rfl
@[simp] theorem State.writePc_faultPc (s : State) (w : Word) : (s.writePc w).faultPc = s.faultPc := rfl
@[simp] theorem State.writePc_rand (s : State) (w : Word) : (s.writePc w).rand = s.rand := rfl
@[simp] theorem State.writePc_status (s : State) (w : Word) : (s.writePc w).status = s.status := rfl
@[simp] theorem State.writePc_skip (s : State) (w : Word) : (s.writePc w).skip = s.skip := rfl
@[simp] theorem State.writePc_prog (s : State) (w : Word) : (s.writePc w).prog = s.prog := rfl
@[simp] theorem State.writePc_rands (s : State) (w : Word) : (s.writePc w).rands = s.rands := rfl
@[simp] theorem State.writePc_draws (s : State) (w : Word) : (s.writePc w).draws = s.draws := rfl
@[simp] theorem State.writePc_readV (s : State) (w : Word) (r : RegIx) : (s.writePc w).readV r = s.readV r := rfl
@[simp] theorem State.writePc_readStack (s : State) (w : Word) (k' : BitVec 4) : (s.writePc w).readStack k' = s.readStack k' := rfl

/-! ### `writeSp` -/

@[simp] theorem State.writeSp_v (s : State) (b : Byte) : (s.writeSp b).v = s.v := rfl
@[simp] theorem State.writeSp_iReg (s : State) (b : Byte) : (s.writeSp b).iReg = s.iReg := rfl
@[simp] theorem State.writeSp_pc (s : State) (b : Byte) : (s.writeSp b).pc = s.pc := rfl
@[simp] theorem State.writeSp_stack (s : State) (b : Byte) : (s.writeSp b).stack = s.stack := rfl
@[simp] theorem State.writeSp_sp (s : State) (b : Byte) : (s.writeSp b).sp = b := rfl
@[simp] theorem State.writeSp_mem (s : State) (b : Byte) : (s.writeSp b).mem = s.mem := rfl
@[simp] theorem State.writeSp_halted (s : State) (b : Byte) : (s.writeSp b).halted = s.halted := rfl
@[simp] theorem State.writeSp_faultCode (s : State) (b : Byte) : (s.writeSp b).faultCode = s.faultCode := rfl
@[simp] theorem State.writeSp_faultWord (s : State) (b : Byte) : (s.writeSp b).faultWord = s.faultWord := rfl
@[simp] theorem State.writeSp_faultPc (s : State) (b : Byte) : (s.writeSp b).faultPc = s.faultPc := rfl
@[simp] theorem State.writeSp_rand (s : State) (b : Byte) : (s.writeSp b).rand = s.rand := rfl
@[simp] theorem State.writeSp_status (s : State) (b : Byte) : (s.writeSp b).status = s.status := rfl
@[simp] theorem State.writeSp_skip (s : State) (b : Byte) : (s.writeSp b).skip = s.skip := rfl
@[simp] theorem State.writeSp_prog (s : State) (b : Byte) : (s.writeSp b).prog = s.prog := rfl
@[simp] theorem State.writeSp_rands (s : State) (b : Byte) : (s.writeSp b).rands = s.rands := rfl
@[simp] theorem State.writeSp_draws (s : State) (b : Byte) : (s.writeSp b).draws = s.draws := rfl
@[simp] theorem State.writeSp_readV (s : State) (b : Byte) (r : RegIx) : (s.writeSp b).readV r = s.readV r := rfl
@[simp] theorem State.writeSp_readStack (s : State) (b : Byte) (k' : BitVec 4) : (s.writeSp b).readStack k' = s.readStack k' := rfl

/-! ### `writeStack` -/

@[simp] theorem State.writeStack_v (s : State) (j : BitVec 4) (w : Word) : (s.writeStack j w).v = s.v := rfl
@[simp] theorem State.writeStack_iReg (s : State) (j : BitVec 4) (w : Word) : (s.writeStack j w).iReg = s.iReg := rfl
@[simp] theorem State.writeStack_pc (s : State) (j : BitVec 4) (w : Word) : (s.writeStack j w).pc = s.pc := rfl
@[simp] theorem State.writeStack_stack (s : State) (j : BitVec 4) (w : Word) : (s.writeStack j w).stack = s.stack.set j.toNat w j.isLt := rfl
@[simp] theorem State.writeStack_sp (s : State) (j : BitVec 4) (w : Word) : (s.writeStack j w).sp = s.sp := rfl
@[simp] theorem State.writeStack_mem (s : State) (j : BitVec 4) (w : Word) : (s.writeStack j w).mem = s.mem := rfl
@[simp] theorem State.writeStack_halted (s : State) (j : BitVec 4) (w : Word) : (s.writeStack j w).halted = s.halted := rfl
@[simp] theorem State.writeStack_faultCode (s : State) (j : BitVec 4) (w : Word) : (s.writeStack j w).faultCode = s.faultCode := rfl
@[simp] theorem State.writeStack_faultWord (s : State) (j : BitVec 4) (w : Word) : (s.writeStack j w).faultWord = s.faultWord := rfl
@[simp] theorem State.writeStack_faultPc (s : State) (j : BitVec 4) (w : Word) : (s.writeStack j w).faultPc = s.faultPc := rfl
@[simp] theorem State.writeStack_rand (s : State) (j : BitVec 4) (w : Word) : (s.writeStack j w).rand = s.rand := rfl
@[simp] theorem State.writeStack_status (s : State) (j : BitVec 4) (w : Word) : (s.writeStack j w).status = s.status := rfl
@[simp] theorem State.writeStack_skip (s : State) (j : BitVec 4) (w : Word) : (s.writeStack j w).skip = s.skip := rfl
@[simp] theorem State.writeStack_prog (s : State) (j : BitVec 4) (w : Word) : (s.writeStack j w).prog = s.prog := rfl
@[simp] theorem State.writeStack_rands (s : State) (j : BitVec 4) (w : Word) : (s.writeStack j w).rands = s.rands := rfl
@[simp] theorem State.writeStack_draws (s : State) (j : BitVec 4) (w : Word) : (s.writeStack j w).draws = s.draws := rfl
@[simp] theorem State.writeStack_readV (s : State) (j : BitVec 4) (w : Word) (r : RegIx) : (s.writeStack j w).readV r = s.readV r := rfl

/-! ### `writeMem` -/

@[simp] theorem State.writeMem_v (s : State) (m : Memory) : (s.writeMem m).v = s.v := rfl
@[simp] theorem State.writeMem_iReg (s : State) (m : Memory) : (s.writeMem m).iReg = s.iReg := rfl
@[simp] theorem State.writeMem_pc (s : State) (m : Memory) : (s.writeMem m).pc = s.pc := rfl
@[simp] theorem State.writeMem_stack (s : State) (m : Memory) : (s.writeMem m).stack = s.stack := rfl
@[simp] theorem State.writeMem_sp (s : State) (m : Memory) : (s.writeMem m).sp = s.sp := rfl
@[simp] theorem State.writeMem_mem (s : State) (m : Memory) : (s.writeMem m).mem = m := rfl
@[simp] theorem State.writeMem_halted (s : State) (m : Memory) : (s.writeMem m).halted = s.halted := rfl
@[simp] theorem State.writeMem_faultCode (s : State) (m : Memory) : (s.writeMem m).faultCode = s.faultCode := rfl
@[simp] theorem State.writeMem_faultWord (s : State) (m : Memory) : (s.writeMem m).faultWord = s.faultWord := rfl
@[simp] theorem State.writeMem_faultPc (s : State) (m : Memory) : (s.writeMem m).faultPc = s.faultPc := rfl
@[simp] theorem State.writeMem_rand (s : State) (m : Memory) : (s.writeMem m).rand = s.rand := rfl
@[simp] theorem State.writeMem_status (s : State) (m : Memory) : (s.writeMem m).status = s.status := rfl
@[simp] theorem State.writeMem_skip (s : State) (m : Memory) : (s.writeMem m).skip = s.skip := rfl
@[simp] theorem State.writeMem_prog (s : State) (m : Memory) : (s.writeMem m).prog = s.prog := rfl
@[simp] theorem State.writeMem_rands (s : State) (m : Memory) : (s.writeMem m).rands = s.rands := rfl
@[simp] theorem State.writeMem_draws (s : State) (m : Memory) : (s.writeMem m).draws = s.draws := rfl
@[simp] theorem State.writeMem_readV (s : State) (m : Memory) (r : RegIx) : (s.writeMem m).readV r = s.readV r := rfl
@[simp] theorem State.writeMem_readStack (s : State) (m : Memory) (k' : BitVec 4) : (s.writeMem m).readStack k' = s.readStack k' := rfl

/-! ### `setRand` -/

@[simp] theorem State.setRand_v (s : State) (r : Byte) : (s.setRand r).v = s.v := rfl
@[simp] theorem State.setRand_iReg (s : State) (r : Byte) : (s.setRand r).iReg = s.iReg := rfl
@[simp] theorem State.setRand_pc (s : State) (r : Byte) : (s.setRand r).pc = s.pc := rfl
@[simp] theorem State.setRand_stack (s : State) (r : Byte) : (s.setRand r).stack = s.stack := rfl
@[simp] theorem State.setRand_sp (s : State) (r : Byte) : (s.setRand r).sp = s.sp := rfl
@[simp] theorem State.setRand_mem (s : State) (r : Byte) : (s.setRand r).mem = s.mem := rfl
@[simp] theorem State.setRand_halted (s : State) (r : Byte) : (s.setRand r).halted = s.halted := rfl
@[simp] theorem State.setRand_faultCode (s : State) (r : Byte) : (s.setRand r).faultCode = s.faultCode := rfl
@[simp] theorem State.setRand_faultWord (s : State) (r : Byte) : (s.setRand r).faultWord = s.faultWord := rfl
@[simp] theorem State.setRand_faultPc (s : State) (r : Byte) : (s.setRand r).faultPc = s.faultPc := rfl
@[simp] theorem State.setRand_rand (s : State) (r : Byte) : (s.setRand r).rand = r := rfl
@[simp] theorem State.setRand_status (s : State) (r : Byte) : (s.setRand r).status = s.status := rfl
@[simp] theorem State.setRand_skip (s : State) (r : Byte) : (s.setRand r).skip = s.skip := rfl
@[simp] theorem State.setRand_prog (s : State) (r : Byte) : (s.setRand r).prog = s.prog := rfl
@[simp] theorem State.setRand_rands (s : State) (r : Byte) : (s.setRand r).rands = s.rands := rfl
@[simp] theorem State.setRand_draws (s : State) (r : Byte) : (s.setRand r).draws = s.draws := rfl
@[simp] theorem State.setRand_readV (s : State) (b : Byte) (r : RegIx) : (s.setRand b).readV r = s.readV r := rfl
@[simp] theorem State.setRand_readStack (s : State) (r : Byte) (k' : BitVec 4) : (s.setRand r).readStack k' = s.readStack k' := rfl

/-! ### `report` -/

@[simp] theorem State.report_v (s : State) (st : Status) (k : Bool) : (s.report st k).v = s.v := rfl
@[simp] theorem State.report_iReg (s : State) (st : Status) (k : Bool) : (s.report st k).iReg = s.iReg := rfl
@[simp] theorem State.report_pc (s : State) (st : Status) (k : Bool) : (s.report st k).pc = s.pc := rfl
@[simp] theorem State.report_stack (s : State) (st : Status) (k : Bool) : (s.report st k).stack = s.stack := rfl
@[simp] theorem State.report_sp (s : State) (st : Status) (k : Bool) : (s.report st k).sp = s.sp := rfl
@[simp] theorem State.report_mem (s : State) (st : Status) (k : Bool) : (s.report st k).mem = s.mem := rfl
@[simp] theorem State.report_halted (s : State) (st : Status) (k : Bool) : (s.report st k).halted = s.halted := rfl
@[simp] theorem State.report_faultCode (s : State) (st : Status) (k : Bool) : (s.report st k).faultCode = s.faultCode := rfl
@[simp] theorem State.report_faultWord (s : State) (st : Status) (k : Bool) : (s.report st k).faultWord = s.faultWord := rfl
@[simp] theorem State.report_faultPc (s : State) (st : Status) (k : Bool) : (s.report st k).faultPc = s.faultPc := rfl
@[simp] theorem State.report_rand (s : State) (st : Status) (k : Bool) : (s.report st k).rand = s.rand := rfl
@[simp] theorem State.report_status (s : State) (st : Status) (k : Bool) : (s.report st k).status = st := rfl
@[simp] theorem State.report_skip (s : State) (st : Status) (k : Bool) : (s.report st k).skip = k := rfl
@[simp] theorem State.report_prog (s : State) (st : Status) (k : Bool) : (s.report st k).prog = s.prog := rfl
@[simp] theorem State.report_rands (s : State) (st : Status) (k : Bool) : (s.report st k).rands = s.rands := rfl
@[simp] theorem State.report_draws (s : State) (st : Status) (k : Bool) : (s.report st k).draws = s.draws := rfl
@[simp] theorem State.report_readV (s : State) (st : Status) (k : Bool) (r : RegIx) : (s.report st k).readV r = s.readV r := rfl
@[simp] theorem State.report_readStack (s : State) (st : Status) (k : Bool) (k' : BitVec 4) : (s.report st k).readStack k' = s.readStack k' := rfl

/-! ### `recordFault` -/

@[simp] theorem State.recordFault_v (s : State) (f : HaltingFault) (w : Word) : (s.recordFault f w).v = s.v := rfl
@[simp] theorem State.recordFault_iReg (s : State) (f : HaltingFault) (w : Word) : (s.recordFault f w).iReg = s.iReg := rfl
@[simp] theorem State.recordFault_pc (s : State) (f : HaltingFault) (w : Word) : (s.recordFault f w).pc = s.pc := rfl
@[simp] theorem State.recordFault_stack (s : State) (f : HaltingFault) (w : Word) : (s.recordFault f w).stack = s.stack := rfl
@[simp] theorem State.recordFault_sp (s : State) (f : HaltingFault) (w : Word) : (s.recordFault f w).sp = s.sp := rfl
@[simp] theorem State.recordFault_mem (s : State) (f : HaltingFault) (w : Word) : (s.recordFault f w).mem = s.mem := rfl
@[simp] theorem State.recordFault_halted (s : State) (f : HaltingFault) (w : Word) : (s.recordFault f w).halted = true := rfl
@[simp] theorem State.recordFault_faultCode (s : State) (f : HaltingFault) (w : Word) : (s.recordFault f w).faultCode = f.status.code := rfl
@[simp] theorem State.recordFault_faultWord (s : State) (f : HaltingFault) (w : Word) : (s.recordFault f w).faultWord = w := rfl
@[simp] theorem State.recordFault_faultPc (s : State) (f : HaltingFault) (w : Word) : (s.recordFault f w).faultPc = s.pc := rfl
@[simp] theorem State.recordFault_rand (s : State) (f : HaltingFault) (w : Word) : (s.recordFault f w).rand = s.rand := rfl
@[simp] theorem State.recordFault_status (s : State) (f : HaltingFault) (w : Word) : (s.recordFault f w).status = s.status := rfl
@[simp] theorem State.recordFault_skip (s : State) (f : HaltingFault) (w : Word) : (s.recordFault f w).skip = s.skip := rfl
@[simp] theorem State.recordFault_prog (s : State) (f : HaltingFault) (w : Word) : (s.recordFault f w).prog = s.prog := rfl
@[simp] theorem State.recordFault_rands (s : State) (f : HaltingFault) (w : Word) : (s.recordFault f w).rands = s.rands := rfl
@[simp] theorem State.recordFault_draws (s : State) (f : HaltingFault) (w : Word) : (s.recordFault f w).draws = s.draws := rfl
@[simp] theorem State.recordFault_readV (s : State) (f : HaltingFault) (w : Word) (r : RegIx) : (s.recordFault f w).readV r = s.readV r := rfl
@[simp] theorem State.recordFault_readStack (s : State) (f : HaltingFault) (w : Word) (k' : BitVec 4) : (s.recordFault f w).readStack k' = s.readStack k' := rfl

/-! ### `jumpTo` -/

@[simp] theorem State.jumpTo_v (s : State) (t : Word) : (s.jumpTo t).v = s.v := rfl
@[simp] theorem State.jumpTo_iReg (s : State) (t : Word) : (s.jumpTo t).iReg = s.iReg := rfl
@[simp] theorem State.jumpTo_pc (s : State) (t : Word) : (s.jumpTo t).pc = t - 1 := rfl
@[simp] theorem State.jumpTo_stack (s : State) (t : Word) : (s.jumpTo t).stack = s.stack := rfl
@[simp] theorem State.jumpTo_sp (s : State) (t : Word) : (s.jumpTo t).sp = s.sp := rfl
@[simp] theorem State.jumpTo_mem (s : State) (t : Word) : (s.jumpTo t).mem = s.mem := rfl
@[simp] theorem State.jumpTo_halted (s : State) (t : Word) : (s.jumpTo t).halted = s.halted := rfl
@[simp] theorem State.jumpTo_faultCode (s : State) (t : Word) : (s.jumpTo t).faultCode = s.faultCode := rfl
@[simp] theorem State.jumpTo_faultWord (s : State) (t : Word) : (s.jumpTo t).faultWord = s.faultWord := rfl
@[simp] theorem State.jumpTo_faultPc (s : State) (t : Word) : (s.jumpTo t).faultPc = s.faultPc := rfl
@[simp] theorem State.jumpTo_rand (s : State) (t : Word) : (s.jumpTo t).rand = s.rand := rfl
@[simp] theorem State.jumpTo_status (s : State) (t : Word) : (s.jumpTo t).status = s.status := rfl
@[simp] theorem State.jumpTo_skip (s : State) (t : Word) : (s.jumpTo t).skip = s.skip := rfl
@[simp] theorem State.jumpTo_prog (s : State) (t : Word) : (s.jumpTo t).prog = s.prog := rfl
@[simp] theorem State.jumpTo_rands (s : State) (t : Word) : (s.jumpTo t).rands = s.rands := rfl
@[simp] theorem State.jumpTo_draws (s : State) (t : Word) : (s.jumpTo t).draws = s.draws := rfl
@[simp] theorem State.jumpTo_readV (s : State) (t : Word) (r : RegIx) : (s.jumpTo t).readV r = s.readV r := rfl
@[simp] theorem State.jumpTo_readStack (s : State) (t : Word) (k' : BitVec 4) : (s.jumpTo t).readStack k' = s.readStack k' := rfl

/-! ### `advancePc` -/

@[simp] theorem State.advancePc_v (s : State) : (s.advancePc).v = s.v := rfl
@[simp] theorem State.advancePc_iReg (s : State) : (s.advancePc).iReg = s.iReg := rfl
@[simp] theorem State.advancePc_pc (s : State) : (s.advancePc).pc = s.pc + 1 := rfl
@[simp] theorem State.advancePc_stack (s : State) : (s.advancePc).stack = s.stack := rfl
@[simp] theorem State.advancePc_sp (s : State) : (s.advancePc).sp = s.sp := rfl
@[simp] theorem State.advancePc_mem (s : State) : (s.advancePc).mem = s.mem := rfl
@[simp] theorem State.advancePc_halted (s : State) : (s.advancePc).halted = s.halted := rfl
@[simp] theorem State.advancePc_faultCode (s : State) : (s.advancePc).faultCode = s.faultCode := rfl
@[simp] theorem State.advancePc_faultWord (s : State) : (s.advancePc).faultWord = s.faultWord := rfl
@[simp] theorem State.advancePc_faultPc (s : State) : (s.advancePc).faultPc = s.faultPc := rfl
@[simp] theorem State.advancePc_rand (s : State) : (s.advancePc).rand = s.rand := rfl
@[simp] theorem State.advancePc_status (s : State) : (s.advancePc).status = s.status := rfl
@[simp] theorem State.advancePc_skip (s : State) : (s.advancePc).skip = s.skip := rfl
@[simp] theorem State.advancePc_prog (s : State) : (s.advancePc).prog = s.prog := rfl
@[simp] theorem State.advancePc_rands (s : State) : (s.advancePc).rands = s.rands := rfl
@[simp] theorem State.advancePc_draws (s : State) : (s.advancePc).draws = s.draws := rfl
@[simp] theorem State.advancePc_readV (s : State) (r : RegIx) : (s.advancePc).readV r = s.readV r := rfl
@[simp] theorem State.advancePc_readStack (s : State) (k' : BitVec 4) : (s.advancePc).readStack k' = s.readStack k' := rfl

/-! ### `afterDraw` -/

@[simp] theorem State.afterDraw_v (s : State) : (s.afterDraw).v = s.v := rfl
@[simp] theorem State.afterDraw_iReg (s : State) : (s.afterDraw).iReg = s.iReg := rfl
@[simp] theorem State.afterDraw_pc (s : State) : (s.afterDraw).pc = s.pc := rfl
@[simp] theorem State.afterDraw_stack (s : State) : (s.afterDraw).stack = s.stack := rfl
@[simp] theorem State.afterDraw_sp (s : State) : (s.afterDraw).sp = s.sp := rfl
@[simp] theorem State.afterDraw_mem (s : State) : (s.afterDraw).mem = s.mem := rfl
@[simp] theorem State.afterDraw_halted (s : State) : (s.afterDraw).halted = s.halted := rfl
@[simp] theorem State.afterDraw_faultCode (s : State) : (s.afterDraw).faultCode = s.faultCode := rfl
@[simp] theorem State.afterDraw_faultWord (s : State) : (s.afterDraw).faultWord = s.faultWord := rfl
@[simp] theorem State.afterDraw_faultPc (s : State) : (s.afterDraw).faultPc = s.faultPc := rfl
@[simp] theorem State.afterDraw_rand (s : State) : (s.afterDraw).rand = s.rand := rfl
@[simp] theorem State.afterDraw_status (s : State) : (s.afterDraw).status = s.status := rfl
@[simp] theorem State.afterDraw_skip (s : State) : (s.afterDraw).skip = s.skip := rfl
@[simp] theorem State.afterDraw_prog (s : State) : (s.afterDraw).prog = s.prog := rfl
@[simp] theorem State.afterDraw_rands (s : State) : (s.afterDraw).rands = s.rands.tail := rfl
@[simp] theorem State.afterDraw_draws (s : State) : (s.afterDraw).draws = s.draws + 1 := rfl
@[simp] theorem State.afterDraw_readV (s : State) (r : RegIx) : (s.afterDraw).readV r = s.readV r := rfl
@[simp] theorem State.afterDraw_readStack (s : State) (k' : BitVec 4) : (s.afterDraw).readStack k' = s.readStack k' := rfl

/-! ### The register file and the stack as arrays -/

/-- A read of V after a write of V. -/
@[simp] theorem State.readV_writeV (s : State) (x r : RegIx) (b : Byte) :
    (s.writeV x b).readV r = if r = x then b else s.readV r := by
  simp [State.readV, State.writeV, Vector.getElem_set, ← BitVec.toNat_inj, eq_comm]

/-- A read of the stack after a write of the stack. -/
@[simp] theorem State.readStack_writeStack (s : State) (j k : BitVec 4) (w : Word) :
    (s.writeStack j w).readStack k = if k = j then w else s.readStack k := by
  simp [State.readStack, State.writeStack, Vector.getElem_set, ← BitVec.toNat_inj, eq_comm]

/-- Two register files that read alike are equal. -/
theorem State.v_eq_of_readV (s t : State) (h : ∀ r, t.readV r = s.readV r) : t.v = s.v := by
  apply Vector.ext
  intro i hi
  have := h (BitVec.ofNat 4 i)
  simpa [State.readV, Nat.mod_eq_of_lt hi] using this

/-- Two stacks that read alike are equal. -/
theorem State.stack_eq_of_readStack (s t : State) (h : ∀ j, t.readStack j = s.readStack j) :
    t.stack = s.stack := by
  apply Vector.ext
  intro i hi
  have := h (BitVec.ofNat 4 i)
  simpa [State.readStack, Nat.mod_eq_of_lt hi] using this

/-! ### Reset -/

@[simp] theorem State.reset_iReg : State.reset.iReg = 0 := rfl
@[simp] theorem State.reset_pc : State.reset.pc = 0 := rfl
@[simp] theorem State.reset_sp : State.reset.sp = 0xFF := rfl
@[simp] theorem State.reset_mem : State.reset.mem = [] := rfl
@[simp] theorem State.reset_halted : State.reset.halted = false := rfl
@[simp] theorem State.reset_faultCode : State.reset.faultCode = 0 := rfl
@[simp] theorem State.reset_faultWord : State.reset.faultWord = 0 := rfl
@[simp] theorem State.reset_faultPc : State.reset.faultPc = 0 := rfl
@[simp] theorem State.reset_rand : State.reset.rand = 0 := rfl
@[simp] theorem State.reset_status : State.reset.status = .ok := rfl
@[simp] theorem State.reset_skip : State.reset.skip = false := rfl
@[simp] theorem State.reset_prog : State.reset.prog = [] := rfl
@[simp] theorem State.reset_rands : State.reset.rands = [] := rfl
@[simp] theorem State.reset_draws : State.reset.draws = 0 := rfl

@[simp] theorem State.reset_readV (r : RegIx) : State.reset.readV r = 0 := by
  simp [State.readV, State.reset]

@[simp] theorem State.reset_readStack (j : BitVec 4) : State.reset.readStack j = 0 := by
  simp [State.readStack, State.reset]

@[simp] theorem State.resetBlock_v (s : State) : s.resetBlock.v = State.reset.v := rfl
@[simp] theorem State.resetBlock_iReg (s : State) : s.resetBlock.iReg = State.reset.iReg := rfl
@[simp] theorem State.resetBlock_pc (s : State) : s.resetBlock.pc = State.reset.pc := rfl
@[simp] theorem State.resetBlock_stack (s : State) : s.resetBlock.stack = State.reset.stack := rfl
@[simp] theorem State.resetBlock_sp (s : State) : s.resetBlock.sp = State.reset.sp := rfl
@[simp] theorem State.resetBlock_mem (s : State) : s.resetBlock.mem = State.reset.mem := rfl
@[simp] theorem State.resetBlock_halted (s : State) : s.resetBlock.halted = State.reset.halted := rfl
@[simp] theorem State.resetBlock_faultCode (s : State) : s.resetBlock.faultCode = State.reset.faultCode := rfl
@[simp] theorem State.resetBlock_faultWord (s : State) : s.resetBlock.faultWord = State.reset.faultWord := rfl
@[simp] theorem State.resetBlock_faultPc (s : State) : s.resetBlock.faultPc = State.reset.faultPc := rfl
@[simp] theorem State.resetBlock_rand (s : State) : s.resetBlock.rand = s.rand := rfl
@[simp] theorem State.resetBlock_status (s : State) : s.resetBlock.status = State.reset.status := rfl
@[simp] theorem State.resetBlock_skip (s : State) : s.resetBlock.skip = State.reset.skip := rfl
@[simp] theorem State.resetBlock_prog (s : State) : s.resetBlock.prog = s.prog := rfl
@[simp] theorem State.resetBlock_rands (s : State) : s.resetBlock.rands = s.rands := rfl
@[simp] theorem State.resetBlock_draws (s : State) : s.resetBlock.draws = s.draws := rfl
@[simp] theorem State.resetBlock_readV (s : State) (r : RegIx) : s.resetBlock.readV r = State.reset.readV r := rfl
@[simp] theorem State.resetBlock_readStack (s : State) (j : BitVec 4) : s.resetBlock.readStack j = State.reset.readStack j := rfl

end Sys2Proof.Machine
end

