-- ==== Sys2Proof/Laws/Memory.lean ====
section
/-! SUPPORT. The memory laws: every memory operation keeps the canonical form, and a read after a write gives
the value written and leaves every other address alone. -/

namespace Sys2Proof.Machine

@[simp] theorem Memory.read_nil (a : Nat) : Memory.read [] a = Memory.unlisted := rfl

theorem Memory.read_cons (k : Nat) (c : Byte) (m : Memory) (a : Nat) :
    Memory.read ((k, c) :: m) a = if k = a then c else Memory.read m a := rfl

/-- The canonical form, one cell at a time. -/
theorem Memory.wfFrom_cons (lo a : Nat) (b : Byte) (m : Memory) :
    Memory.wfFrom lo ((a, b) :: m) = true ↔
      lo ≤ a ∧ a < Config.memSize ∧ b ≠ Memory.unlisted ∧ Memory.wfFrom (a + 1) m = true := by
  simp [Memory.wfFrom, and_assoc]

/-- A lower bound may be lowered. -/
theorem Memory.wfFrom_mono (m : Memory) {lo lo' : Nat} (h : lo' ≤ lo) (hm : Memory.wfFrom lo m = true) :
    Memory.wfFrom lo' m = true := by
  cases m with
  | nil => rfl
  | cons c m =>
    obtain ⟨a, b⟩ := c
    rw [Memory.wfFrom_cons] at hm ⊢
    exact ⟨h.trans hm.1, hm.2⟩

/-- Below its lower bound a canonical memory lists nothing. -/
theorem Memory.read_below (m : Memory) {lo a : Nat} (hm : Memory.wfFrom lo m = true) (ha : a < lo) :
    Memory.read m a = Memory.unlisted := by
  induction m generalizing lo with
  | nil => rfl
  | cons c m ih =>
    obtain ⟨k, b⟩ := c
    rw [Memory.wfFrom_cons] at hm
    rw [Memory.read_cons, if_neg (by omega)]
    exact ih hm.2.2.2 (by omega)

theorem Memory.wfFrom_consCell (m : Memory) {lo a : Nat} (b : Byte) (h : lo ≤ a) (ha : a < Config.memSize)
    (hm : Memory.wfFrom (a + 1) m = true) : Memory.wfFrom lo (Memory.consCell a b m) = true := by
  unfold Memory.consCell
  split
  · exact Memory.wfFrom_mono m (by omega) hm
  · rw [Memory.wfFrom_cons]
    exact ⟨h, ha, ‹_›, hm⟩

theorem Memory.wfFrom_write (m : Memory) {lo a : Nat} (b : Byte) (h : lo ≤ a) (ha : a < Config.memSize)
    (hm : Memory.wfFrom lo m = true) : Memory.wfFrom lo (Memory.write m a b) = true := by
  induction m generalizing lo with
  | nil => exact Memory.wfFrom_consCell [] b h ha rfl
  | cons c m ih =>
    obtain ⟨k, d⟩ := c
    rw [Memory.wfFrom_cons] at hm
    unfold Memory.write
    split
    · rw [Memory.wfFrom_cons]
      exact ⟨hm.1, hm.2.1, hm.2.2.1, ih (by omega) hm.2.2.2⟩
    · split
      · subst k
        exact Memory.wfFrom_consCell m b h ha hm.2.2.2
      · refine Memory.wfFrom_consCell _ b h ha ?_
        rw [Memory.wfFrom_cons]
        exact ⟨by omega, hm.2⟩

/-- A write in bounds keeps the canonical form. -/
theorem Memory.wf_write (m : Memory) {a : Nat} (b : Byte) (ha : a < Config.memSize) (hm : Memory.wf m = true) :
    Memory.wf (Memory.write m a b) = true :=
  Memory.wfFrom_write m b (Nat.zero_le a) ha hm

/-- The empty memory is canonical. -/
@[simp] theorem Memory.wf_nil : Memory.wf [] = true := rfl

theorem Memory.read_consCell_ne (m : Memory) {a a' : Nat} (b : Byte) (h : a ≠ a') :
    Memory.read (Memory.consCell a b m) a' = Memory.read m a' := by
  unfold Memory.consCell
  split
  · rfl
  · rw [Memory.read_cons, if_neg h]

/-- A write leaves every other address alone. -/
theorem Memory.read_write_ne (m : Memory) {a a' : Nat} (b : Byte) (h : a ≠ a') :
    Memory.read (Memory.write m a b) a' = Memory.read m a' := by
  induction m with
  | nil => exact Memory.read_consCell_ne [] b h
  | cons c m ih =>
    obtain ⟨k, d⟩ := c
    unfold Memory.write
    split
    · rw [Memory.read_cons, Memory.read_cons, ih]
    · split
      · rw [Memory.read_consCell_ne m b h, Memory.read_cons, if_neg (by omega)]
      · exact Memory.read_consCell_ne _ b h

theorem Memory.read_consCell_self (m : Memory) {a : Nat} (b : Byte) (h : Memory.read m a = Memory.unlisted) :
    Memory.read (Memory.consCell a b m) a = b := by
  unfold Memory.consCell
  split
  · rw [h, ‹b = Memory.unlisted›]
  · rw [Memory.read_cons, if_pos rfl]

theorem Memory.read_write_self_from (m : Memory) {lo a : Nat} (b : Byte) (hm : Memory.wfFrom lo m = true) :
    Memory.read (Memory.write m a b) a = b := by
  induction m generalizing lo with
  | nil => exact Memory.read_consCell_self [] b rfl
  | cons c m ih =>
    obtain ⟨k, d⟩ := c
    have h := (Memory.wfFrom_cons lo k d m).1 hm
    unfold Memory.write
    split
    · rw [Memory.read_cons, if_neg (by omega)]
      exact ih h.2.2.2
    · split
      · exact Memory.read_consCell_self m b (Memory.read_below m h.2.2.2 (by omega))
      · refine Memory.read_consCell_self _ b ?_
        rw [Memory.read_cons, if_neg (by omega)]
        exact Memory.read_below m h.2.2.2 (by omega)

/-- A read of a canonical memory after a write. -/
theorem Memory.read_write (m : Memory) (a a' : Nat) (b : Byte) (hm : Memory.wf m = true) :
    Memory.read (Memory.write m a b) a' = if a' = a then b else Memory.read m a' := by
  split
  · subst a'
    exact Memory.read_write_self_from m b hm
  · exact Memory.read_write_ne m b (Ne.symm ‹_›)

/-- A block store in bounds keeps the canonical form. -/
theorem Memory.wf_storeBlock (v : RegIx → Byte) (base n : Nat) (m : Memory) (h : base + n ≤ Config.memSize)
    (hm : Memory.wf m = true) : Memory.wf (Memory.storeBlock v base n m) = true := by
  induction n with
  | zero => exact hm
  | succ n ih => exact Memory.wf_write _ _ (by omega) (ih (by omega))

/-- A block store leaves every address outside it alone, whatever the memory. -/
theorem Memory.read_storeBlock_outside (v : RegIx → Byte) (base n : Nat) (m : Memory) (a : Nat)
    (h : ∀ k, k < n → a ≠ base + k) :
    Memory.read (Memory.storeBlock v base n m) a = Memory.read m a := by
  induction n with
  | zero => rfl
  | succ n ih =>
    rw [Memory.storeBlock, Memory.read_write_ne _ _ (Ne.symm (h n (by omega)))]
    exact ih (fun k hk => h k (by omega))

/-- A block store puts `v k` at `base + k`. -/
theorem Memory.read_storeBlock_inside (v : RegIx → Byte) (base n : Nat) (m : Memory) (k : Nat) (hk : k < n)
    (h : base + n ≤ Config.memSize) (hm : Memory.wf m = true) :
    Memory.read (Memory.storeBlock v base n m) (base + k) = v (BitVec.ofNat 4 k) := by
  induction n with
  | zero => omega
  | succ n ih =>
    rw [Memory.storeBlock, Memory.read_write _ _ _ _ (Memory.wf_storeBlock v base n m (by omega) hm)]
    split
    · have : k = n := by omega
      rw [this]
    · exact ih (by omega) (by omega)

end Sys2Proof.Machine
end

