-- ==== Sys2Proof/Laws/Ops.lean ====
section
/-! SUPPORT. One lemma per shared operation that says everything it can do; provers cite these instead of
unfolding the operations. -/

namespace Sys2Proof.Machine

/-! ## Arithmetic and flags -/

theorem addByte_toNat (a b : Byte) : (addByte a b).toNat = (a.toNat + b.toNat) % 256 := by
  simp [addByte]

theorem subByte_eq (a b : Byte) : subByte a b = a - b := by
  unfold subByte
  apply BitVec.eq_of_toNat_eq
  rw [BitVec.toNat_ofInt, BitVec.toNat_sub]
  omega

theorem addByte_eq (a b : Byte) : addByte a b = a + b := by
  apply BitVec.eq_of_toNat_eq
  rw [addByte_toNat, BitVec.toNat_add]

theorem subByte_toNat (a b : Byte) :
    (subByte a b).toNat = if b.toNat ≤ a.toNat then a.toNat - b.toNat else 256 + a.toNat - b.toNat := by
  rw [subByte_eq, BitVec.toNat_sub]
  split <;> omega

theorem shiftOutRight_toNat (a : Byte) : (shiftOutRight a).toNat = a.toNat % 2 := by
  simp [shiftOutRight, Nat.and_one_is_mod]

theorem shiftOutLeft_toNat (a : Byte) : (shiftOutLeft a).toNat = a.toNat / 128 := by
  simp only [shiftOutLeft, BitVec.toNat_and, BitVec.toNat_ushiftRight, Nat.shiftRight_eq_div_pow]
  have := a.isLt
  rw [show BitVec.toNat (0x01 : Byte) = 1 from rfl, Nat.and_one_is_mod]
  omega

/-- A flag is 0 or 1 (41_register_alu.md R69). -/
theorem flagOf_eq (c : Bool) : flagOf c = 0 ∨ flagOf c = 1 := by cases c <;> simp [flagOf]

@[simp] theorem zextByte_toNat (b : Byte) : (zextByte b).toNat = b.toNat := by
  simp only [zextByte, BitVec.truncate_eq_setWidth, BitVec.toNat_setWidth]
  omega

@[simp] theorem zextImm_toNat (n : Imm12) : (zextImm n).toNat = n.toNat := by
  simp only [zextImm, BitVec.truncate_eq_setWidth, BitVec.toNat_setWidth]
  omega

/-! ## Ends of a dispatch -/

theorem finish_eq (s : State) : finish s = .next (s.report .ok false) := rfl

theorem decline_eq (st : Status) (s : State) : decline st s = .next (s.report st false) := rfl

theorem raise_eq (f : HaltingFault) (w : Word) (s : State) :
    raise f w s = .next ((s.recordFault f w).report f.status false) := rfl

theorem skipIf_true (s : State) : skipIf true s = .next ((s.writePc (s.pc + 1)).report .ok true) := rfl

theorem skipIf_false (s : State) : skipIf false s = .next (s.report .ok false) := rfl

/-! ## The ALU datapath -/

/-- An ALU function without a flag writes `V[x]` alone. -/
theorem aluOp_noFlag (f : AluFn) (x y : RegIx) (s : State) (h : aluFlag f (s.readV x) (s.readV y) = none) :
    aluOp f x y s = .next ((s.writeV x (aluResult f (s.readV x) (s.readV y))).report .ok false) := by
  simp [aluOp, h, finish]

/-- An ALU function with a flag writes `V[x]` and then VF. -/
theorem aluOp_flag (f : AluFn) (x y : RegIx) (s : State) (fl : Byte)
    (h : aluFlag f (s.readV x) (s.readV y) = some fl) :
    aluOp f x y s =
      .next (((s.writeV x (aluResult f (s.readV x) (s.readV y))).writeV vf fl).report .ok false) := by
  simp [aluOp, h, finish]

/-! ## The stack controller -/

/-- `Push` succeeds iff `(SP + 1) mod 256` is an entry's index. -/
theorem push_eq_some (s : State) (w : Word) (h : (s.sp + 1).toNat ≤ 15) :
    s.push w = some ((s.writeSp (s.sp + 1)).writeStack (BitVec.ofNat 4 (s.sp + 1).toNat) w) := by
  unfold State.push
  rw [if_neg (by omega)]

theorem push_eq_none (s : State) (w : Word) (h : 15 < (s.sp + 1).toNat) : s.push w = none := by
  unfold State.push
  rw [if_pos h]

/-- `Pop` succeeds iff SP is an entry's index. -/
theorem pop_eq_some (s : State) (h : s.sp.toNat ≤ 15) :
    s.pop = some (s.readStack (BitVec.ofNat 4 s.sp.toNat), s.writeSp (s.sp - 1)) := by
  unfold State.pop
  rw [if_neg (by omega)]

theorem pop_eq_none (s : State) (h : 15 < s.sp.toNat) : s.pop = none := by
  unfold State.pop
  rw [if_pos h]

/-- From a legal SP, a push succeeds exactly when the stack is not full. -/
theorem push_room (s : State) (h : s.SpLegal) : (s.sp + 1).toNat ≤ 15 ↔ s.sp ≠ 0x0F := by
  obtain h | h := h
  · simp [h]
  · rw [BitVec.toNat_add, ne_eq, ← BitVec.toNat_inj, show BitVec.toNat (0x0F : Byte) = 15 from rfl,
      show BitVec.toNat (1 : Byte) = 1 from rfl]
    omega

/-! ## Block transfers -/

theorem blockInBounds_iff (s : State) (x : RegIx) :
    s.blockInBounds x = true ↔ s.iReg.toNat + x.toNat < Config.memSize := by
  simp [State.blockInBounds, State.blockAddr]

/-- A block load writes `V[k]` with the byte at `base + k` for `k < n` and keeps every other V register. -/
theorem readV_loadBlock (m : Memory) (base n : Nat) (hn : n ≤ 16) (s : State) (r : RegIx) :
    (State.loadBlock m base n s).readV r =
      if r.toNat < n then Memory.read m (base + r.toNat) else s.readV r := by
  induction n with
  | zero => simp [State.loadBlock]
  | succ n ih =>
    rw [State.loadBlock, State.readV_writeV, ih (by omega)]
    have hr : r = BitVec.ofNat 4 n ↔ r.toNat = n := by
      rw [← BitVec.toNat_inj, BitVec.toNat_ofNat, Nat.mod_eq_of_lt (by omega)]
    by_cases h : r.toNat = n
    · rw [if_pos (hr.2 h), if_pos (by omega), h]
    · rw [if_neg (fun e => h (hr.1 e))]
      by_cases h' : r.toNat < n
      · rw [if_pos h', if_pos (by omega)]
      · rw [if_neg h', if_neg (by omega)]

/-- A block load writes V registers only. -/
theorem loadBlock_frame (m : Memory) (base n : Nat) (s : State) :
    State.loadBlock m base n s = { s with v := (State.loadBlock m base n s).v } := by
  induction n with
  | zero => rfl
  | succ n ih =>
    rw [State.loadBlock]
    generalize hr : State.loadBlock m base n s = t at ih ⊢
    rw [ih]
    rfl

@[simp] theorem loadBlock_iReg (m : Memory) (base n : Nat) (s : State) : (State.loadBlock m base n s).iReg = s.iReg := by rw [loadBlock_frame]
@[simp] theorem loadBlock_pc (m : Memory) (base n : Nat) (s : State) : (State.loadBlock m base n s).pc = s.pc := by rw [loadBlock_frame]
@[simp] theorem loadBlock_stack (m : Memory) (base n : Nat) (s : State) : (State.loadBlock m base n s).stack = s.stack := by rw [loadBlock_frame]
@[simp] theorem loadBlock_sp (m : Memory) (base n : Nat) (s : State) : (State.loadBlock m base n s).sp = s.sp := by rw [loadBlock_frame]
@[simp] theorem loadBlock_mem (m : Memory) (base n : Nat) (s : State) : (State.loadBlock m base n s).mem = s.mem := by rw [loadBlock_frame]
@[simp] theorem loadBlock_halted (m : Memory) (base n : Nat) (s : State) : (State.loadBlock m base n s).halted = s.halted := by rw [loadBlock_frame]
@[simp] theorem loadBlock_faultCode (m : Memory) (base n : Nat) (s : State) : (State.loadBlock m base n s).faultCode = s.faultCode := by rw [loadBlock_frame]
@[simp] theorem loadBlock_faultWord (m : Memory) (base n : Nat) (s : State) : (State.loadBlock m base n s).faultWord = s.faultWord := by rw [loadBlock_frame]
@[simp] theorem loadBlock_faultPc (m : Memory) (base n : Nat) (s : State) : (State.loadBlock m base n s).faultPc = s.faultPc := by rw [loadBlock_frame]
@[simp] theorem loadBlock_rand (m : Memory) (base n : Nat) (s : State) : (State.loadBlock m base n s).rand = s.rand := by rw [loadBlock_frame]
@[simp] theorem loadBlock_status (m : Memory) (base n : Nat) (s : State) : (State.loadBlock m base n s).status = s.status := by rw [loadBlock_frame]
@[simp] theorem loadBlock_skip (m : Memory) (base n : Nat) (s : State) : (State.loadBlock m base n s).skip = s.skip := by rw [loadBlock_frame]
@[simp] theorem loadBlock_prog (m : Memory) (base n : Nat) (s : State) : (State.loadBlock m base n s).prog = s.prog := by rw [loadBlock_frame]
@[simp] theorem loadBlock_rands (m : Memory) (base n : Nat) (s : State) : (State.loadBlock m base n s).rands = s.rands := by rw [loadBlock_frame]
@[simp] theorem loadBlock_draws (m : Memory) (base n : Nat) (s : State) : (State.loadBlock m base n s).draws = s.draws := by rw [loadBlock_frame]
@[simp] theorem loadBlock_readStack (m : Memory) (base n : Nat) (s : State) (j : BitVec 4) : (State.loadBlock m base n s).readStack j = s.readStack j := by simp [State.readStack]

/-! ## The environment -/

/-- The slot a word is put at holds that word. -/
theorem placeWord_self (p : List Word) (n : Nat) (w : Word) : (placeWord p n w)[n]? = some w := by
  induction n generalizing p with
  | zero => cases p <;> rfl
  | succ n ih => cases p <;> simp [placeWord, ih]

/-- A word put at a slot leaves every existing other slot alone. -/
theorem placeWord_other (p : List Word) (n j : Nat) (w : Word) (hj : j < p.length) (h : j ≠ n) :
    (placeWord p n w)[j]? = p[j]? := by
  induction n generalizing p j with
  | zero =>
    cases p with
    | nil => simp at hj
    | cons a p =>
      cases j with
      | zero => omega
      | succ j => simp [placeWord]
  | succ n ih =>
    cases p with
    | nil => simp at hj
    | cons a p =>
      cases j with
      | zero => simp [placeWord]
      | succ j =>
        simp only [placeWord, List.getElem?_cons_succ]
        exact ih p j (by simpa using hj) (by omega)

/-- The byte a draw takes from a list that is not used up. -/
theorem drawn_of_cons (s : State) (r : Byte) (rs : List Byte) (h : s.rands = r :: rs) : s.drawn = r := by
  simp [State.drawn, h]

/-- The byte a draw takes past the list: the free value. -/
theorem drawn_of_nil (s : State) (h : s.rands = []) : s.drawn = Config.randDraw s.draws := by
  simp [State.drawn, h]

/-! ## Dispatch and the step -/

theorem dispatch_of_halted (w : Word) (r : Byte) (s : State) (h : s.halted = true) :
    dispatch w r s = .next (s.report .halted false) := by
  simp [dispatch, h, decline]

theorem dispatch_of_unknown (w : Word) (r : Byte) (s : State) (h : s.halted = false) (e : DecodeFault)
    (hd : decode w = .error e) : dispatch w r s = .next (s.report (decodeStatus e) false) := by
  simp [dispatch, h, hd, decline]

theorem dispatch_of_ok (w : Word) (r : Byte) (s : State) (h : s.halted = false) (i : Instr)
    (hd : decode w = .ok i) : dispatch w r s = exec i (s.setRand r) := by
  simp [dispatch, h, hd]

/-- Everything a dispatch can be. -/
theorem dispatch_cases (w : Word) (r : Byte) (s : State) :
    (s.halted = true ∧ dispatch w r s = .next (s.report .halted false)) ∨
    (s.halted = false ∧ ∃ e, decode w = .error e ∧ dispatch w r s = .next (s.report (decodeStatus e) false)) ∨
    (s.halted = false ∧ ∃ i, decode w = .ok i ∧ dispatch w r s = exec i (s.setRand r)) := by
  cases h : s.halted with
  | true => exact .inl ⟨rfl, dispatch_of_halted w r s h⟩
  | false =>
    cases hd : decode w with
    | error e => exact .inr (.inl ⟨rfl, e, rfl, dispatch_of_unknown w r s h e hd⟩)
    | ok i => exact .inr (.inr ⟨rfl, i, rfl, dispatch_of_ok w r s h i hd⟩)

/-- An accepted text is dispatched as its word. -/
theorem dispatchText_of_ok (text : List Char) (w : Word) (r : Byte) (s : State) (h : parseWord text = .ok w) :
    dispatchText text r s = dispatch w r s := by
  simp [dispatchText, h]

theorem dispatchText_of_malformed (text : List Char) (e : DecodeFault) (r : Byte) (s : State)
    (h : parseWord text = .error e) : dispatchText text r s = .next (s.report (decodeStatus e) false) := by
  simp [dispatchText, h, decline]

/-- A step on a running sequencer with a word at PC is what its dispatch answers, with PC advanced iff OK. -/
theorem step_of_dispatch (s t : State) (w : Word) (hs : s.status = .ok) (hw : s.fetch = some w)
    (hd : dispatch w s.drawn s.afterDraw = .next t) : step s = .next t.afterDispatch := by
  simp [step, sequencerTurn, hs, hw, hd]

/-- Everything a step that answers a next state has done: the sequencer was not stopped, a word stood at PC,
its dispatch answered, and PC advanced iff the status was OK. -/
theorem step_next_cases (s s' : State) (h : step s = .next s') :
    s.status = .ok ∧ ∃ w t, s.fetch = some w ∧ dispatch w s.drawn s.afterDraw = .next t ∧
      s' = t.afterDispatch := by
  unfold step sequencerTurn at h
  split at h
  · refine ⟨‹_›, ?_⟩
    split at h
    · cases h
    · split at h
      · injection h with h
        exact ⟨_, _, ‹_›, ‹_›, h.symm⟩
      · cases h
      · cases h
  · cases h

end Sys2Proof.Machine
end

