-- ==== Sys2Proof/Laws/Exec.lean ====
section
/-! SUPPORT. What each arm of `exec` answers, as one equation per form, so that no proof unfolds a meaning. -/

namespace Sys2Proof.Machine

/-! ## Register loads and ALU -/

theorem exec_ldb (x : RegIx) (kk : Byte) (s : State) :
    exec (.ldb x kk) s = .next ((s.writeV x kk).report .ok false) := rfl

theorem exec_addb (x : RegIx) (kk : Byte) (s : State) :
    exec (.addb x kk) s = .next ((s.writeV x (addByte (s.readV x) kk)).report .ok false) := rfl

theorem exec_mov (x y : RegIx) (s : State) :
    exec (.mov x y) s = .next ((s.writeV x (s.readV y)).report .ok false) := rfl

theorem exec_or (x y : RegIx) (s : State) :
    exec (.or x y) s = .next ((s.writeV x (s.readV x ||| s.readV y)).report .ok false) := rfl

theorem exec_and (x y : RegIx) (s : State) :
    exec (.and x y) s = .next ((s.writeV x (s.readV x &&& s.readV y)).report .ok false) := rfl

theorem exec_xor (x y : RegIx) (s : State) :
    exec (.xor x y) s = .next ((s.writeV x (s.readV x ^^^ s.readV y)).report .ok false) := rfl

theorem exec_add (x y : RegIx) (s : State) :
    exec (.add x y) s = .next (((s.writeV x (addByte (s.readV x) (s.readV y))).writeV vf
      (carryFlag (s.readV x) (s.readV y))).report .ok false) := rfl

theorem exec_sub (x y : RegIx) (s : State) :
    exec (.sub x y) s = .next (((s.writeV x (subByte (s.readV x) (s.readV y))).writeV vf
      (noBorrowFlag (s.readV x) (s.readV y))).report .ok false) := rfl

theorem exec_subn (x y : RegIx) (s : State) :
    exec (.subn x y) s = .next (((s.writeV x (subByte (s.readV y) (s.readV x))).writeV vf
      (noBorrowFlag (s.readV y) (s.readV x))).report .ok false) := rfl

theorem exec_shr (x y : RegIx) (s : State) :
    exec (.shr x y) s = .next (((s.writeV x (s.readV x >>> 1)).writeV vf
      (shiftOutRight (s.readV x))).report .ok false) := rfl

theorem exec_shl (x y : RegIx) (s : State) :
    exec (.shl x y) s = .next (((s.writeV x (BitVec.ofNat 8 ((s.readV x).toNat * 2))).writeV vf
      (shiftOutLeft (s.readV x))).report .ok false) := rfl

theorem exec_rnd (x : RegIx) (kk : Byte) (s : State) :
    exec (.rnd x kk) s = .next ((s.writeV x (s.rand &&& kk)).report .ok false) := rfl

/-! ## Index register -/

theorem exec_ldi (nnn : Imm12) (s : State) :
    exec (.ldi nnn) s = .next ((s.writeI (zextImm nnn)).report .ok false) := rfl

theorem exec_addi (x : RegIx) (s : State) :
    exec (.addi x) s = .next ((s.writeI (s.iReg + zextByte (s.readV x))).report .ok false) := rfl

/-! ## Skips and jump -/

/-- A skip, taken or not. -/
theorem skipIf_eq (c : Bool) (s : State) :
    skipIf c s = .next (if c = true then (s.writePc (s.pc + 1)).report .ok true else s.report .ok false) := by
  cases c <;> rfl

theorem exec_seb (x : RegIx) (kk : Byte) (s : State) :
    exec (.seb x kk) s = skipIf (s.readV x == kk) s := rfl

theorem exec_sneb (x : RegIx) (kk : Byte) (s : State) :
    exec (.sneb x kk) s = skipIf (s.readV x != kk) s := rfl

theorem exec_ser (x y : RegIx) (s : State) :
    exec (.ser x y) s = skipIf (s.readV x == s.readV y) s := rfl

theorem exec_sner (x y : RegIx) (s : State) :
    exec (.sner x y) s = skipIf (s.readV x != s.readV y) s := rfl

theorem exec_jmpv0 (nnn : Imm12) (s : State) :
    exec (.jmpv0 nnn) s =
      .next ((s.jumpTo (zextByte (s.readV 0x0) + zextImm nnn)).report .ok false) := rfl

/-! ## Block transfers -/

theorem exec_stm (x : RegIx) (s : State) (h : s.iReg.toNat + x.toNat < Config.memSize) :
    exec (.stm x) s = .next ((s.writeMem
      (Memory.storeBlock s.readV (s.blockAddr 0) (blockCount x) s.mem)).report .ok false) := by
  simp [exec, execStm, (blockInBounds_iff s x).2 h, finish]

theorem exec_stm_bounds (x : RegIx) (s : State) (h : Config.memSize ≤ s.iReg.toNat + x.toNat) :
    exec (.stm x) s = raise .memoryBounds (encode (.stm x)) s := by
  have : s.blockInBounds x ≠ true := fun hb => by rw [blockInBounds_iff] at hb; omega
  simp [exec, execStm, this]

theorem exec_ldm (x : RegIx) (s : State) (h : s.iReg.toNat + x.toNat < Config.memSize) :
    exec (.ldm x) s =
      .next ((State.loadBlock s.mem (s.blockAddr 0) (blockCount x) s).report .ok false) := by
  simp [exec, execLdm, (blockInBounds_iff s x).2 h, finish]

theorem exec_ldm_bounds (x : RegIx) (s : State) (h : Config.memSize ≤ s.iReg.toNat + x.toNat) :
    exec (.ldm x) s = raise .memoryBounds (encode (.ldm x)) s := by
  have : s.blockInBounds x ≠ true := fun hb => by rw [blockInBounds_iff] at hb; omega
  simp [exec, execLdm, this]

/-! ## Call and return -/

theorem exec_call (nnn : Imm12) (s : State) (h : (s.sp + 1).toNat ≤ 15) :
    exec (.call nnn) s = .next ((((s.writeSp (s.sp + 1)).writeStack (BitVec.ofNat 4 (s.sp + 1).toNat)
      s.pc).jumpTo (zextImm nnn)).report .ok false) := by
  simp only [exec, execCall, push_eq_some s s.pc h, finish]

theorem exec_call_overflow (nnn : Imm12) (s : State) (h : 15 < (s.sp + 1).toNat) :
    exec (.call nnn) s = raise .stackOverflow (encode (.call nnn)) s := by
  simp only [exec, execCall, push_eq_none s s.pc h]

theorem exec_ret (s : State) (h : s.sp.toNat ≤ 15) :
    exec .ret s = .next (((s.writeSp (s.sp - 1)).writePc
      (s.readStack (BitVec.ofNat 4 s.sp.toNat))).report .ok false) := by
  simp only [exec, execRet, pop_eq_some s h, finish]

theorem exec_ret_underflow (s : State) (h : 15 < s.sp.toNat) :
    exec .ret s = raise .stackUnderflow (encode .ret) s := by
  simp only [exec, execRet, pop_eq_none s h]

end Sys2Proof.Machine
end

