-- ==== Sys2Proof/Laws/PerInstr.lean ====
section
/-! SUPPORT. A statement per instruction about its encoding: the word `encode` writes is accepted by the row
of the instruction table that carries the instruction's mnemonic (30_encoding.md R53, R55). -/

namespace Sys2Proof.Laws.RowMatch

/-- The encoding of the instruction has the match value of its row under the row's mask. -/
def Statement (i : Instr) : Prop :=
  ∃ r, rowOf i.mnemonic = some r ∧ encode i &&& r.mask = r.pattern

theorem of_op {o : BitVec 4} {i : Instr} (r : TableRow) (hr : rowOf i.mnemonic = some r)
    (hm : r.mask = 0xF000#16) (hp : r.pattern = wordOfDigits o 0 0 0) (ho : opField (encode i) = o) :
    Statement i := ⟨r, hr, by rw [hm, hp]; exact (and_F000 _ _).2 ho⟩

theorem of_op_n {o n : BitVec 4} {i : Instr} (r : TableRow) (hr : rowOf i.mnemonic = some r)
    (hm : r.mask = 0xF00F#16) (hp : r.pattern = wordOfDigits o 0 0 n) (ho : opField (encode i) = o)
    (hn : nField (encode i) = n) : Statement i := ⟨r, hr, by rw [hm, hp]; exact (and_F00F _ _ _).2 ⟨ho, hn⟩⟩

theorem of_op_sub {o a b : BitVec 4} {i : Instr} (r : TableRow) (hr : rowOf i.mnemonic = some r)
    (hm : r.mask = 0xF0FF#16) (hp : r.pattern = wordOfDigits o 0 a b) (ho : opField (encode i) = o)
    (hk : kkField (encode i) = (a ++ b : BitVec (4 + 4))) : Statement i :=
  ⟨r, hr, by rw [hm, hp]; exact (and_F0FF _ _ _ _).2 ⟨ho, (kkField_eq_iff _ _ _).1 hk⟩⟩

theorem ldb (x : RegIx) (kk : Byte) : Statement (.ldb x kk) :=
  of_op (o := 0x6) _ rfl rfl rfl (opField_wordXKK _ _ _)
theorem addb (x : RegIx) (kk : Byte) : Statement (.addb x kk) :=
  of_op (o := 0x7) _ rfl rfl rfl (opField_wordXKK _ _ _)
theorem mov (x y : RegIx) : Statement (.mov x y) :=
  of_op_n (o := 0x8) (n := 0x0) _ rfl rfl rfl (opField_wordXYN _ _ _ _) (nField_wordXYN _ _ _ _)
theorem or (x y : RegIx) : Statement (.or x y) :=
  of_op_n (o := 0x8) (n := 0x1) _ rfl rfl rfl (opField_wordXYN _ _ _ _) (nField_wordXYN _ _ _ _)
theorem and (x y : RegIx) : Statement (.and x y) :=
  of_op_n (o := 0x8) (n := 0x2) _ rfl rfl rfl (opField_wordXYN _ _ _ _) (nField_wordXYN _ _ _ _)
theorem xor (x y : RegIx) : Statement (.xor x y) :=
  of_op_n (o := 0x8) (n := 0x3) _ rfl rfl rfl (opField_wordXYN _ _ _ _) (nField_wordXYN _ _ _ _)
theorem add (x y : RegIx) : Statement (.add x y) :=
  of_op_n (o := 0x8) (n := 0x4) _ rfl rfl rfl (opField_wordXYN _ _ _ _) (nField_wordXYN _ _ _ _)
theorem sub (x y : RegIx) : Statement (.sub x y) :=
  of_op_n (o := 0x8) (n := 0x5) _ rfl rfl rfl (opField_wordXYN _ _ _ _) (nField_wordXYN _ _ _ _)
theorem subn (x y : RegIx) : Statement (.subn x y) :=
  of_op_n (o := 0x8) (n := 0x7) _ rfl rfl rfl (opField_wordXYN _ _ _ _) (nField_wordXYN _ _ _ _)
theorem shr (x y : RegIx) : Statement (.shr x y) :=
  of_op_n (o := 0x8) (n := 0x6) _ rfl rfl rfl (opField_wordXYN _ _ _ _) (nField_wordXYN _ _ _ _)
theorem shl (x y : RegIx) : Statement (.shl x y) :=
  of_op_n (o := 0x8) (n := 0xE) _ rfl rfl rfl (opField_wordXYN _ _ _ _) (nField_wordXYN _ _ _ _)
theorem rnd (x : RegIx) (kk : Byte) : Statement (.rnd x kk) :=
  of_op (o := 0xC) _ rfl rfl rfl (opField_wordXKK _ _ _)
theorem ldi (nnn : Imm12) : Statement (.ldi nnn) :=
  of_op (o := 0xA) _ rfl rfl rfl (opField_wordNNN _ _)
theorem addi (x : RegIx) : Statement (.addi x) :=
  of_op_sub (o := 0xF) (a := 0x1) (b := 0xE) _ rfl rfl rfl (opField_wordXKK _ _ _) (kkField_wordXKK _ _ _)
theorem seb (x : RegIx) (kk : Byte) : Statement (.seb x kk) :=
  of_op (o := 0x3) _ rfl rfl rfl (opField_wordXKK _ _ _)
theorem sneb (x : RegIx) (kk : Byte) : Statement (.sneb x kk) :=
  of_op (o := 0x4) _ rfl rfl rfl (opField_wordXKK _ _ _)
theorem ser (x y : RegIx) : Statement (.ser x y) :=
  of_op_n (o := 0x5) (n := 0x0) _ rfl rfl rfl (opField_wordXYN _ _ _ _) (nField_wordXYN _ _ _ _)
theorem sner (x y : RegIx) : Statement (.sner x y) :=
  of_op_n (o := 0x9) (n := 0x0) _ rfl rfl rfl (opField_wordXYN _ _ _ _) (nField_wordXYN _ _ _ _)
theorem jmpv0 (nnn : Imm12) : Statement (.jmpv0 nnn) :=
  of_op (o := 0xB) _ rfl rfl rfl (opField_wordNNN _ _)
theorem stm (x : RegIx) : Statement (.stm x) :=
  of_op_sub (o := 0xF) (a := 0x5) (b := 0x5) _ rfl rfl rfl (opField_wordXKK _ _ _) (kkField_wordXKK _ _ _)
theorem ldm (x : RegIx) : Statement (.ldm x) :=
  of_op_sub (o := 0xF) (a := 0x6) (b := 0x5) _ rfl rfl rfl (opField_wordXKK _ _ _) (kkField_wordXKK _ _ _)
theorem call (nnn : Imm12) : Statement (.call nnn) :=
  of_op (o := 0x2) _ rfl rfl rfl (opField_wordNNN _ _)
theorem ret : Statement .ret := ⟨_, rfl, by decide⟩

end Sys2Proof.Laws.RowMatch
end

