-- ==== Sys2Proof/Tests/Slice0.lean ====
section
/-! SUPPORT. Tests. Expected values come from spec/95_test_vectors.md (the vector's name stands in the comment)
or are written out from the encodings of 30_encoding.md R55. Then the smoke tests of the well-formedness checks,
and a witness for the hypotheses of each statement in Certificates/Slice0/Obligations.lean. -/

namespace Sys2Proof.Tests

open Sys2Proof Sys2Proof.Machine

/-! ## Decoding, one word per constructor, bits written out from the templates -/

theorem test_decode_ldb : decode 0b0110101001000010 = .ok (.ldb 0xA 0x42) := by decide
theorem test_decode_addb : decode 0b0111001100100000 = .ok (.addb 0x3 0x20) := by decide
theorem test_decode_mov : decode 0b1000000100100000 = .ok (.mov 0x1 0x2) := by decide
theorem test_decode_or : decode 0b1000000100100001 = .ok (.or 0x1 0x2) := by decide
theorem test_decode_and : decode 0b1000000100100010 = .ok (.and 0x1 0x2) := by decide
theorem test_decode_xor : decode 0b1000000100100011 = .ok (.xor 0x1 0x2) := by decide
theorem test_decode_add : decode 0b1000000000010100 = .ok (.add 0x0 0x1) := by decide
theorem test_decode_sub : decode 0b1000111100010101 = .ok (.sub 0xF 0x1) := by decide
theorem test_decode_subn : decode 0b1000111100010111 = .ok (.subn 0xF 0x1) := by decide
theorem test_decode_shr : decode 0b1000000000010110 = .ok (.shr 0x0 0x1) := by decide
theorem test_decode_shl : decode 0b1000000000011110 = .ok (.shl 0x0 0x1) := by decide
theorem test_decode_rnd : decode 0b1100010111111110 = .ok (.rnd 0x5 0xFE) := by decide
theorem test_decode_ldi : decode 0b1010000100100011 = .ok (.ldi 0x123) := by decide
theorem test_decode_addi : decode 0b1111001100011110 = .ok (.addi 0x3) := by decide
theorem test_decode_seb : decode 0b0011000000010010 = .ok (.seb 0x0 0x12) := by decide
theorem test_decode_sneb : decode 0b0100000000010011 = .ok (.sneb 0x0 0x13) := by decide
theorem test_decode_ser : decode 0b0101001000110000 = .ok (.ser 0x2 0x3) := by decide
theorem test_decode_sner : decode 0b1001001000110000 = .ok (.sner 0x2 0x3) := by decide
theorem test_decode_jmpv0 : decode 0b1011001000000000 = .ok (.jmpv0 0x200) := by decide
theorem test_decode_stm : decode 0b1111001001010101 = .ok (.stm 0x2) := by decide
theorem test_decode_ldm : decode 0b1111001001100101 = .ok (.ldm 0x2) := by decide
theorem test_decode_call : decode 0b0010000100100011 = .ok (.call 0x123) := by decide
theorem test_decode_ret : decode 0b0000000011101110 = .ok .ret := by decide

/-- A word that does not decode. -/
def isUnknown (w : Word) : Bool :=
  match decode w with
  | .error .unknownInstruction => true
  | _ => false

/-- 95_test_vectors.md 2.6, V-DEC: the unknown words. -/
theorem test_decode_unknown : ([0x0000, 0x00E0, 0x00EF, 0x0123, 0x1234, 0x5121, 0x8008, 0x800F, 0x9001,
    0xD123, 0xE09E, 0xF033, 0xF007, 0xFFFF] : List Word).all isUnknown = true := rfl

/-- The host's view of a word: the table's numbering, and one length only. -/
theorem test_decodeTableWord : decodeTableWord 16 0x6A42 = some (.ldb 0xA 0x42) ∧
    decodeTableWord 32 0x6A42 = none ∧ decodeTableWord 8 0xEE = some .ret := by decide

/-- The templates of 30_encoding.md R55 compile to the printed masks and match values. -/
theorem test_table_compiles : ∀ r ∈ instructionTable, r.template.mask = r.mask ∧ r.template.pattern = r.pattern := by
  decide

/-- FE-1, FE-2, FE-3: the text front-end ignores case. -/
theorem test_text_case : parseWord ['6', 'a', '4', '2'] = .ok 0x6A42 ∧ parseWord ['6', 'A', '4', '2'] = .ok 0x6A42 ∧
    parseWord ['0', '0', 'e', 'e'] = .ok 0x00EE := by decide

/-- FE-4 to FE-8: malformed texts. -/
theorem test_text_malformed : ∀ t ∈ [['6', 'A', '4'], ['6', 'A', '4', '2', '1'], ['0', 'x', '6', 'A'],
    ['6', 'G', '4', '2'], []], parseWord t = .error .malformedInstruction := by decide

/-- 30_encoding.md R52: the template `6xkk` as text. -/
theorem test_template_text : parseTemplate ['6', 'x', 'k', 'k'] = some ⟨.lit 0x6, .x, .k, .k⟩ ∧
    parseTemplate ['8', 'x', 'y', 'e'] = some ⟨.lit 0x8, .x, .y, .lit 0xE⟩ ∧
    parseTemplate ['6', 'x', 'k'] = none := by decide

/-- 95_test_vectors.md P1, P2, P3: the assembly beside the words. -/
theorem test_assemble : assembleText ['L', 'D', 'B', ' ', 'V', '0', ',', ' ', '0', 'x', '0', '7'] = some 0x6007 ∧
    assembleText ['J', 'M', 'P', 'V', '0', ' ', '0', 'x', '0', '1', '0'] = some 0xB010 ∧
    assembleText ['A', 'D', 'D', 'I', ' ', 'V', '0'] = some 0xF01E ∧
    assembleText ['R', 'E', 'T'] = some 0x00EE := by decide

/-! ## Well-formedness checks refuse ill-formed terms -/

theorem test_template_refused : Template.wellFormed ⟨.lit 0x6, .x, .k, .y⟩ = false ∧
    Template.wellFormed ⟨.lit 0xA, .n, .n, .lit 0x0⟩ = false ∧ Template.wellFormed ⟨.x, .k, .k, .k⟩ = false ∧
    Template.wellFormed ⟨.n, .n, .n, .n⟩ = false ∧ Template.wellFormed ⟨.lit 0x6, .x, .k, .k⟩ = true := by decide

/-- 90_conflicts.md C5: a second `Fx65` entry collides, and so does `Fxkk` with it. -/
theorem test_collision_refused :
    collisionFree [⟨.lit 0xF, .x, .lit 0x6, .lit 0x5⟩, ⟨.lit 0xF, .x, .lit 0x6, .lit 0x5⟩] = false ∧
    collisionFree [⟨.lit 0xF, .x, .lit 0x6, .lit 0x5⟩, ⟨.lit 0xF, .x, .k, .k⟩] = false ∧
    collisionFree [⟨.lit 0xF, .x, .lit 0x6, .lit 0x5⟩, ⟨.lit 0xF, .x, .lit 0x5, .lit 0x5⟩] = true := by decide

theorem test_buildTable_refused :
    buildTable [⟨.lit 0xF, .x, .lit 0x6, .lit 0x5⟩, ⟨.lit 0xF, .x, .k, .k⟩] = .error .templateCollision ∧
    buildTable [⟨.lit 0x6, .x, .k, .y⟩] = .error .badTemplate := by decide

/-- 30_encoding.md R64: an operand that does not fit, of the wrong kind, or missing. -/
theorem test_line_refused : AsmLine.wellFormed ⟨.LDB, [.reg 16, .num 0]⟩ = false ∧
    AsmLine.wellFormed ⟨.LDB, [.reg 0, .num 256]⟩ = false ∧ AsmLine.wellFormed ⟨.CALL, [.num 4096]⟩ = false ∧
    AsmLine.wellFormed ⟨.MOV, [.reg 0, .num 1]⟩ = false ∧ AsmLine.wellFormed ⟨.SHR, [.reg 0]⟩ = false ∧
    AsmLine.wellFormed ⟨.RET, [.num 0]⟩ = false := by decide

theorem test_program_refused : programWellFormed [] = false ∧ programWellFormed [0x00EE] = true := by decide

theorem test_memory_refused : Memory.wf [(5, 1), (5, 2)] = false ∧ Memory.wf [(6, 1), (5, 2)] = false ∧
    Memory.wf [(5, 0)] = false ∧ Memory.wf [(4096, 1)] = false ∧ Memory.wf [(5, 1), (4095, 2)] = true := by decide

/-! ## One step each: the vectors of 95_test_vectors.md -/

/-- A view of the next state of an outcome; none for a fault or a refusal. -/
def view {α : Type} (f : State → α) : Host.Outcome State Fault Refusal → Option α
  | .next t => some (f t)
  | .fault _ => none
  | .refused _ => none

/-- The reset state with these values in V0, V1 and VF. -/
def regs (a b f : Byte) : State := ((State.reset.writeV 0x0 a).writeV 0x1 b).writeV 0xF f

/-- V0 and VF. -/
def v0f (t : State) : Byte × Byte := (t.readV 0x0, t.readV 0xF)

/-- V-LDB-2. -/
theorem test_ldb : view (·.readV 0xF) (exec (.ldb 0xF 0x07) (regs 0 0 1)) = some 0x07 := by decide
/-- V-ADDB-2 on V0: the wrap leaves VF. -/
theorem test_addb : view v0f (exec (.addb 0x0 0xFF) (regs 0x01 0 0x05)) = some (0x00, 0x05) := by decide
/-- V-MOV-1 on V0, V1. -/
theorem test_mov : view (fun t => (t.readV 0, t.readV 1)) (exec (.mov 0x0 0x1) (regs 0 0x5C 0)) =
    some (0x5C, 0x5C) := by decide
/-- V-OR-2 on V0, V1. -/
theorem test_or : view v0f (exec (.or 0x0 0x1) (regs 0x0F 0xF0 0x07)) = some (0xFF, 0x07) := by decide
/-- V-AND-1 on V0, V1. -/
theorem test_and : view v0f (exec (.and 0x0 0x1) (regs 0x3C 0x0F 0x07)) = some (0x0C, 0x07) := by decide
/-- V-XOR-1 on V0, V1. -/
theorem test_xor : view v0f (exec (.xor 0x0 0x1) (regs 0xFF 0x0F 0x07)) = some (0xF0, 0x07) := by decide
/-- V-ADD-3. -/
theorem test_add_255 : view v0f (exec (.add 0x0 0x1) (regs 0xF0 0x0F 0x01)) = some (0xFF, 0x00) := by decide
/-- V-ADD-6: `y` is VF, read before the flag. -/
theorem test_add_vf : view v0f (exec (.add 0x0 0xF) (regs 0x10 0 0x01)) = some (0x11, 0x00) := by decide
/-- V-SUB-2. -/
theorem test_sub_wraps : view v0f (exec (.sub 0x0 0x1) (regs 0x03 0x0A 0x01)) = some (0xF9, 0x00) := by decide
/-- V-SUB-3: equal operands give 0. -/
theorem test_sub_equal : view v0f (exec (.sub 0x0 0x1) (regs 0x05 0x05 0x01)) = some (0x00, 0x00) := by decide
/-- V-SUBN-1. -/
theorem test_subn : view v0f (exec (.subn 0x0 0x1) (regs 0x03 0x0A 0x00)) = some (0x07, 0x01) := by decide
/-- V-SUBN-4: `x` is VF, the flag is kept. -/
theorem test_subn_vf : view (·.readV 0xF) (exec (.subn 0xF 0x1) (regs 0 0x0A 0x03)) = some 0x01 := by decide
/-- V-SHR-3. -/
theorem test_shr : view v0f (exec (.shr 0x0 0x1) (regs 0xFE 0xFF 0x01)) = some (0x7F, 0x00) := by decide
/-- V-SHR-4: `x` is VF. -/
theorem test_shr_vf : view (·.readV 0xF) (exec (.shr 0xF 0x0) (regs 0 0 0x02)) = some 0x00 := by decide
/-- V-SHL-1. -/
theorem test_shl : view v0f (exec (.shl 0x0 0x0) (regs 0x81 0 0x00)) = some (0x02, 0x01) := by decide
/-- V-SHL-4: `x` is VF. -/
theorem test_shl_vf : view (·.readV 0xF) (exec (.shl 0xF 0x0) (regs 0 0 0x40)) = some 0x00 := by decide
/-- V-RND-1: RAND 0xA5 under the mask 0x0F. -/
theorem test_rnd : view (·.readV 0x0) (dispatch 0xC00F 0xA5 State.reset) = some 0x05 := by decide
/-- V-LDI-3. -/
theorem test_ldi : view (·.iReg) (exec (.ldi 0x000) (State.reset.writeI 0xFFFF)) = some 0x0000 := by decide
/-- V-ADDI-1: the wrap leaves VF. -/
theorem test_addi : view (fun t => (t.iReg, t.readV 0xF)) (exec (.addi 0x0) ((regs 0x02 0 0).writeI 0xFFFF)) =
    some (0x0001, 0x00) := by decide
/-- V-SEB-3: PC wraps. -/
theorem test_seb : view (fun t => (t.pc, t.skip)) (exec (.seb 0x0 0x00) (State.reset.writePc 0xFFFF)) =
    some (0x0000, true) := by decide
/-- V-SNEB-1: no skip. -/
theorem test_sneb : view (fun t => (t.pc, t.skip)) (exec (.sneb 0x0 0x12) ((regs 0x12 0 0).writePc 0x0010)) =
    some (0x0010, false) := by decide
/-- V-SER-3: `x` and `y` the same. -/
theorem test_ser : view (fun t => (t.pc, t.skip)) (exec (.ser 0x1 0x1) ((regs 0 0x9A 0).writePc 0x0020)) =
    some (0x0021, true) := by decide
/-- V-SNER-1 on V0, V1. -/
theorem test_sner : view (fun t => (t.pc, t.skip)) (exec (.sner 0x0 0x1) ((regs 0x05 0x06 0).writePc 0x0004)) =
    some (0x0005, true) := by decide
/-- V-JMPV0-2: target 0. -/
theorem test_jmpv0_zero : view (·.pc) (exec (.jmpv0 0x000) (State.reset.writePc 0x0030)) = some 0xFFFF := by decide
/-- V-JMPV0-3: the largest target. -/
theorem test_jmpv0_max : view (·.pc) (exec (.jmpv0 0xFFF) (regs 0xFF 0 0)) = some 0x10FD := by decide
/-- V-STM-1 with two registers. -/
theorem test_stm : view (fun t => (t.mem, t.iReg)) (exec (.stm 0x1) ((regs 0x01 0x02 0).writeI 0x0300)) =
    some ([(0x300, 0x01), (0x301, 0x02)], 0x0300) := by decide
/-- V-STM-3: out of bounds, nothing stored. -/
theorem test_stm_bounds : view (fun t => (t.mem, t.halted, t.faultCode, t.faultWord, t.faultPc))
    (exec (.stm 0x1) (((regs 0xAB 0xCD 0).writeI 0x0FFF).writePc 0x0007)) =
    some ([], true, 0x05, 0xF155, 0x0007) := by decide
/-- V-LDM-1. -/
theorem test_ldm : view (fun t => (t.readV 0, t.readV 1, t.readV 2)) (exec (.ldm 0x1)
    (((State.reset.writeV 0x2 0x77).writeI 0x0300).writeMem [(0x300, 0x11), (0x301, 0x22)])) =
    some (0x11, 0x22, 0x77) := by decide
/-- V-LDM-3: `I + 15` is 0x1000. -/
theorem test_ldm_bounds : view (fun t => (t.readV 0, t.status, t.faultWord)) (exec (.ldm 0xF)
    ((regs 0x55 0 0).writeI 0x0FF1)) = some (0x55, .memoryBounds, 0xFF65) := by decide
/-- V-CALL-2: the 16th push, target 0. -/
theorem test_call : view (fun t => (t.pc, t.sp, t.readStack 0xF)) (exec (.call 0x000)
    ((State.reset.writePc 0x0040).writeSp 0x0E)) = some (0xFFFF, 0x0F, 0x0040) := by decide
/-- V-CALL-5: an SP only the port can leave. -/
theorem test_call_overflow : view (fun t => (t.sp, t.faultCode, t.faultWord, t.faultPc)) (exec (.call 0x200)
    ((State.reset.writePc 0x0043).writeSp 0xFE)) = some (0xFE, 0x03, 0x2200, 0x0043) := by decide
/-- V-RET-1: the popped entry stays. -/
theorem test_ret : view (fun t => (t.pc, t.sp, t.readStack 0x0)) (exec .ret
    ((State.reset.writeSp 0x00).writeStack 0x0 0x0005)) = some (0x0005, 0xFF, 0x0005) := by decide
/-- V-RET-2: the empty stack. -/
theorem test_ret_underflow : view (fun t => (t.pc, t.sp, t.status, t.faultCode)) (exec .ret
    (State.reset.writePc 0x0012)) = some (0x0012, 0xFF, .stackUnderflow, 0x04) := by decide

/-- The end state of P4: a halted block. -/
def haltedState : State :=
  ((State.reset.writeSp 0x0F).recordFault .stackOverflow 0x2000).report .stackOverflow false

/-- V-HLT-1: a dispatch to a halted block. -/
theorem test_halted : view (fun t => (t.readV 0xA, t.status, t.faultCode)) (dispatch 0x6A42 0 haltedState) =
    some (0x00, .halted, 0x03) := by decide
/-- V-HLT-2 and FE-4: the halted refusal comes before decode and after the text check. -/
theorem test_priority : view (·.status) (dispatch 0x1234 0 haltedState) = some .halted ∧
    view (·.status) (dispatchText ['6', 'A', '4'] 0 haltedState) = some .malformedInstruction := by decide
/-- V-HLT-3: reset. -/
theorem test_reset : haltedState.resetBlock = State.reset := by decide
/-- V-DEC-1234: an unknown word. -/
theorem test_unknown : dispatch 0x1234 0 (regs 0x01 0 0) = .next ((regs 0x01 0 0).report .unknownInstruction false) := rfl
/-- P5: the reference sequencer stops on the status; P7's first dispatch advances PC. -/
theorem test_sequencer : (runSequencer 2 (startState [0x00EE] [])).map (·.1) = some (.faultStatus .stackUnderflow) ∧
    view (·.pc) (step (startState [0x6001, 0x1234] [])) = some 0x0001 := by decide
/-- RANDS supplies the byte, one draw per dispatch. -/
theorem test_rands : view (fun t => (t.readV 0x0, t.rands, t.draws)) (step (startState [0xC00F] [0xA5])) =
    some (0x05, [], 1) := by decide
/-- The host's fetch on the reset state. -/
theorem test_withFetchWord : view (·.readV 0xA) (step (State.reset.withFetchWord 16 0x6A42)) = some 0x42 := by decide

/-! ## Witnesses: each statement's hypotheses are met together -/

/-- An outcome is a next state. -/
def answersNext (o : Host.Outcome State Fault Refusal) : Bool := (view (fun _ => ()) o).isSome

theorem exists_next {o : Host.Outcome State Fault Refusal} (h : answersNext o = true) : ∃ t, o = .next t := by
  cases o with
  | next t => exact ⟨t, rfl⟩
  | fault r => cases h
  | refused r => cases h

/-- Reset and the loaded states meet the invariant. -/
theorem startState_inv (prog : List Word) (rands : List Byte) : (startState prog rands).Inv :=
  ⟨.inl rfl, rfl, ⟨fun _ => ⟨rfl, rfl, rfl⟩, fun h => by cases h⟩, fun h => by cases h⟩

/-- A halted state meets the invariant, so its clauses about a halted block are met too. -/
theorem witness_halted_inv : haltedState.Inv :=
  ⟨.inr (by decide), rfl, ⟨fun h => absurd h (by decide), fun _ => ⟨rfl, .inl ⟨rfl, 0x000, rfl⟩⟩⟩,
    fun _ h => absurd h (by decide)⟩

theorem witness_EveryStepKeepsTheInvariant :
    ∃ s t : State, s.Inv ∧ step s = .next t :=
  ⟨_, (exists_next (o := step (startState [0x00EE] [])) (by decide)).choose, startState_inv _ _,
    (exists_next (o := step (startState [0x00EE] [])) (by decide)).choose_spec⟩

theorem witness_EveryTransactionButAPortWriteKeepsTheInvariant :
    ∃ (tr : Transaction) (s t : State), (∀ p, tr ≠ .portWrite p) ∧ s.Inv ∧ transact tr s = .next t :=
  ⟨.reset, haltedState, State.reset, fun _ h => (by cases h), witness_halted_inv, rfl⟩

theorem witness_DecodeAndEncodeAreInverse : decode 0x801E = .ok (.shl 0x0 0x1) := by decide

theorem witness_NoWordMatchesTwoRows :
    (⟨⟨.lit 0xF, .x, .lit 0x6, .lit 0x5⟩, .LDM, 0xF0FF, 0xF065⟩ : TableRow) ∈ instructionTable ∧
      (0xF265 : Word) &&& 0xF0FF = 0xF065 := by decide

theorem witness_MaskAndMatchIsTheStringMatcher : ((TemplateChar.lit 0x6), (0xF : BitVec 4), (0x6 : BitVec 4)) ∈
    [((⟨.lit 0x6, .x, .k, .k⟩ : Template).c0, opField (⟨.lit 0x6, .x, .k, .k⟩ : Template).mask,
      opField (⟨.lit 0x6, .x, .k, .k⟩ : Template).pattern)] := by decide

/-- A pair of places that share a word, a shape without a meaning, and a table that builds. -/
theorem witness_CollisionMeansACommonWord :
    ([⟨.lit 0xF, .x, .lit 0x6, .lit 0x5⟩, ⟨.lit 0xF, .x, .k, .k⟩] : List Template).all Template.wellFormed = true ∧
    Template.accepts ⟨.lit 0xF, .x, .lit 0x6, .lit 0x5⟩ 0xF265 = true ∧
    Template.accepts ⟨.lit 0xF, .x, .k, .k⟩ 0xF265 = true ∧ Template.wellFormed ⟨.lit 0x6, .x, .k, .y⟩ = false ∧
    Template.wellFormed ⟨.k, .k, .k, .k⟩ = false ∧ Template.wellFormed ⟨.lit 0x2, .n, .n, .n⟩ = true := by decide

/-- The boundaries of the listed ranges, and the one word between two of them. -/
theorem witness_UnassignedWordsAreUnknown : ([0x0000, 0x00ED, 0x00EF, 0x0FFF, 0x1000, 0x1FFF, 0x5001, 0x8008,
    0x800D, 0x800F, 0x900F, 0xD000, 0xDFFF, 0xE000, 0xEFFF, 0xF01D, 0xF066] : List Word).all isUnknown = true ∧
    decode 0x1234 = .error .unknownInstruction ∧ decode 0x00EE = .ok .ret ∧ State.reset.halted = false :=
  ⟨rfl, rfl, rfl, rfl⟩

/-- The last byte of memory, and one past it. -/
theorem witness_StmStoresTheBlockOrFaults : (State.reset.writeI 0x0FFF).MemCanonical ∧
    (State.reset.writeI 0x0FFF).iReg.toNat + (0x0 : RegIx).toNat < 4096 ∧
    4096 ≤ (State.reset.writeI 0x0FFF).iReg.toNat + (0x1 : RegIx).toNat := ⟨rfl, by decide, by decide⟩

theorem witness_LdmLoadsTheBlockOrFaults :
    (State.reset.writeI 0x0FF0).iReg.toNat + (0xF : RegIx).toNat < 4096 ∧
    4096 ≤ (State.reset.writeI 0x0FF1).iReg.toNat + (0xF : RegIx).toNat := by decide

/-- An empty stack and one with a single free entry; a full one and an SP only the port can leave. -/
theorem witness_CallPushesAndJumpsOrFaults :
    (∀ b ∈ ([0xFF, 0x0E] : List Byte), ((State.reset.writeSp b).sp.toNat + 1) % 256 ≤ 15) ∧
    (∀ b ∈ ([0x0F, 0xFE] : List Byte), 15 < ((State.reset.writeSp b).sp.toNat + 1) % 256) := by decide

theorem witness_RetPopsOrFaults :
    (State.reset.writeSp 0x00).sp.toNat = (0x0 : BitVec 4).toNat ∧
    (State.reset.writeSp 0x0F).sp.toNat = (0xF : BitVec 4).toNat ∧
    (∀ b ∈ ([0x10, 0xFF] : List Byte), 15 < (State.reset.writeSp b).sp.toNat) := by decide

/-- A CALL to slot 1 at slot 0, where a RET stands. -/
theorem witness_CallAndReturnBalance : decode 0x2001 = .ok (.call 0x001) ∧
    (startState [0x2001, 0x00EE] []).halted = false ∧ (startState [0x2001, 0x00EE] []).SpLegal ∧
    (startState [0x2001, 0x00EE] []).sp ≠ 0x0F ∧ (startState [0x2001, 0x00EE] []).status = .ok ∧
    (startState [0x2001, 0x00EE] []).prog[(startState [0x2001, 0x00EE] []).pc.toNat]? = some 0x2001 ∧
    (startState [0x2001, 0x00EE] []).prog[(0x001 : Imm12).toNat]? = some 0x00EE :=
  ⟨by decide, rfl, .inl rfl, by decide, rfl, rfl, rfl⟩

theorem witness_MinorOpcodeSelectsTheAluFunction : aluSelect 0xE = some .shl ∧ aluSelect 0x8 = none := by decide

theorem witness_FlagIsWrittenLast : (Instr.shl 0xF 0x1, AluFn.shl) ∈ [(Instr.add 0xF 0x1, AluFn.add),
    (.sub 0xF 0x1, .sub), (.subn 0xF 0x1, .subn), (.shr 0xF 0x1, .shr), (.shl 0xF 0x1, .shl)] := by decide

/-- PR-2 and PR-3. -/
theorem witness_ShiftsUndoEachOther : (0x0 : RegIx) ≠ 0xF ∧ ((regs 0x5A 0 0).readV 0x0).toNat % 2 = 0 ∧
    ((regs 0x35 0 0).readV 0x0).toNat < 128 := by decide

theorem witness_StoreThenLoadIsIdempotent : (State.reset.writeI 0x0FF0).MemCanonical ∧
    (State.reset.writeI 0x0FF0).iReg.toNat + (0xF : RegIx).toNat < 4096 := ⟨rfl, by decide⟩

theorem witness_DispatchRefusesOrRunsOneEffect : haltedState.halted = true ∧
    (State.reset.halted = false ∧ decode 0xF033 = .error .unknownInstruction) ∧
    decode 0x6A42 = .ok (.ldb 0xA 0x42) := by decide

theorem witness_HaltingFaultEntryWritesTheRecord :
    ∃ t, dispatch 0x00EE 0 State.reset = .next t ∧ t.status.haltsBlock = true := ⟨_, rfl, rfl⟩

theorem witness_EveryFaultIsPrecise : ∃ t, transact (.dispatch 0x00EE 0) State.reset = .next t ∧ t.status ≠ .ok :=
  ⟨_, rfl, by decide⟩

theorem witness_ChecksRunInPriorityOrder : parseWord ['0', 'x', '6', 'A'] = .error .malformedInstruction ∧
    (parseWord ['1', '2', '3', '4'] = .ok 0x1234 ∧ haltedState.halted = true) ∧
    (State.reset.halted = false ∧ decode 0x1234 = .error .unknownInstruction) ∧
    (parseWord ['0', '0', 'E', 'e'] = .ok 0x00EE ∧ decode 0x00EE = .ok .ret) := by decide

/-- The characters at the ends of the three ranges, and those just outside. -/
theorem witness_TextFrontEndReadsFourHexDigits :
    ['0', '9', 'A', 'F', 'a', 'f'].map hexDigit = [some 0x0, some 0x9, some 0xA, some 0xF, some 0xA, some 0xF] ∧
    ['/', ':', '@', 'G', '`', 'g'].map hexDigit = [none, none, none, none, none, none] ∧
    ['6', 'A', '4'].length ≠ 4 ∧ parseWord ['6', 'a', '4', '2'] = .ok 0x6A42 := by decide

theorem witness_SkipOutputIsExactlyATakenSkip : ∃ t, dispatch 0x3000 0 State.reset = .next t ∧ t.skip = true :=
  ⟨_, rfl, rfl⟩

theorem witness_OnlyResetClearsTheFaultRecord :
    (∃ t, transact (.dispatch 0x6A42 0) haltedState = .next t ∧ haltedState.halted = true) ∧
    (∃ t, transact (.dispatch 0x00EE 0) State.reset = .next t ∧ State.reset.halted = false ∧ t.halted = true) :=
  ⟨⟨_, rfl, rfl⟩, ⟨_, rfl, rfl, rfl⟩⟩

theorem witness_EachRegisterHasOnlyItsWriters :
    ∃ t, exec (.call 0x123) State.reset = .next t ∧ t.pc ≠ State.reset.pc ∧ t.sp ≠ State.reset.sp :=
  ⟨_, rfl, by decide, by decide⟩

theorem witness_OnlyBlockTransfersReachMemory :
    ∃ t, (Instr.add 0x0 0x1).mnemonic ≠ .STM ∧ (Instr.add 0x0 0x1).mnemonic ≠ .LDM ∧
      exec (.add 0x0 0x1) (regs 1 2 0) = .next t := ⟨_, by decide, by decide, rfl⟩

theorem witness_OnlyRndReadsTheRandomByte :
    ∃ t, (Instr.ldb 0x0 0x1).mnemonic ≠ .RND ∧ exec (.ldb 0x0 0x1) State.reset = .next t := ⟨_, by decide, rfl⟩

/-- The last address the port reaches. -/
theorem witness_PortWritesOnlyItsPlace : State.reset.MemCanonical ∧
    portRead (portPlaceOf (.mem ⟨4095, by decide⟩ 0xAB)) (portWrite (.mem ⟨4095, by decide⟩ 0xAB) State.reset) = 0xAB ∧
    PortPlace.halted ≠ portPlaceOf (.sp 0x10) := ⟨rfl, by decide, by decide⟩

/-- 10_state.md R27: I and PC are read and written each at its own place, and a halted block's record is read. -/
theorem test_port : view (fun t => (t.iReg, t.pc)) (transact (.portWrite (.i 0x0300)) State.reset) =
      some (0x0300, 0x0000) ∧
    view (fun t => (t.iReg, t.pc)) (transact (.portWrite (.pc 0x0007)) State.reset) = some (0x0000, 0x0007) ∧
    (portRead .halted haltedState, portRead .faultCode haltedState, portRead .faultWord haltedState) =
      (1, 3, 0x2000) := by decide

theorem witness_CanonicalMemoriesThatReadAlikeAreEqual : Memory.wf [(5, 1), (4095, 2)] = true ∧
    ∀ a, Memory.read [(5, 1), (4095, 2)] a = Memory.read [(5, 1), (4095, 2)] a := ⟨rfl, fun _ => rfl⟩

/-- One start state per clause: a word that decodes with a byte listed, one that does not decode with none listed
(P7), and a halted block with a word placed by `withFetchWord`. -/
theorem witness_StepRunsTheDecodedInstruction :
    ((startState [0xC0FF] [0xA5]).status = .ok ∧ (startState [0xC0FF] [0xA5]).halted = false ∧
      (startState [0xC0FF] [0xA5]).prog[(startState [0xC0FF] [0xA5]).pc.toNat]? = some 0xC0FF ∧
      decode 0xC0FF = .ok (.rnd 0x0 0xFF) ∧ (startState [0xC0FF] [0xA5]).rands = [0xA5]) ∧
    ((startState [0x1234] []).status = .ok ∧ (startState [0x1234] []).halted = false ∧
      (startState [0x1234] []).prog[(startState [0x1234] []).pc.toNat]? = some 0x1234 ∧
      decode 0x1234 = .error .unknownInstruction ∧ (startState [0x1234] []).rands = []) ∧
    ((haltedState.withFetchWord 16 0x6A42).status = .ok ∧ (haltedState.withFetchWord 16 0x6A42).halted = true ∧
      (haltedState.withFetchWord 16 0x6A42).prog[(haltedState.withFetchWord 16 0x6A42).pc.toNat]? = some 0x6A42) := by
  decide

/-- P7: the unknown word is reported and PC stays on it. -/
theorem test_step_unknown : view (fun t => (t.pc, t.status, t.skip)) (step (startState [0x1234] [])) =
    some (0x0000, .unknownInstruction, false) := by decide

theorem witness_StepRunsTheFetchWord : State.reset.halted = false ∧
    decodeTableWord 16 0xF265 = some (.ldm 0x2) := by decide

/-- PC at the end of the program, and a status other than OK. -/
theorem witness_StepStopsExactlyAtTheEndOfARun :
    step (startState [] []) = .fault .endOfProgram ∧
    step haltedState = .fault (.stoppedOnStatus .stackOverflow) := ⟨rfl, rfl⟩

/-- One program per clause: a jump, a call, a return with an entry, a taken skip. -/
theorem witness_ControlTransfersLandOnTheirTargets :
    (decode 0xB005 = .ok (.jmpv0 0x005) ∧ (startState [0xB005] []).prog[0]? = some 0xB005) ∧
    (decode 0x2FFF = .ok (.call 0xFFF) ∧ (startState [0x2FFF] []).sp ≠ 0x0F) ∧
    (decode 0x00EE = .ok .ret ∧ ((startState [0x00EE] []).writeSp 0x0F).sp.toNat = (0xF : BitVec 4).toNat) ∧
    ((Instr.seb 0x0 0x00).mnemonic ∉ [Mnemonic.JMPV0, .CALL, .RET] ∧
      view (fun t => (t.pc, t.skip)) (step (startState [0x3000] [])) = some (0x0002, true)) := by decide

theorem witness_NoStepChangesTheProgram : answersNext (step (startState [0xC0FF] [])) = true := by decide

theorem witness_AssemblerWritesTheEncoding : AsmLine.wellFormed ⟨.LDB, [.reg 16, .num 0]⟩ = false ∧
    AsmLine.wellFormed ⟨.CALL, [.num 4095]⟩ = true := by decide

end Sys2Proof.Tests
end

section
/-! PROOFS. Every transaction answers a next state (00_scope.md R5). -/

namespace Sys2Proof.Machine

/-! ## Every meaning answers a next state: a halting fault is a state too (60_exceptions.md R108) -/

/-- CALL, RET, STM and LDM either pass their own check or raise; both ends are next states. -/
theorem exec_answers_next (i : Instr) (s : State) : ∃ t, exec i s = .next t := by
  cases i with
  | ldb x kk => exact ⟨_, exec_ldb x kk s⟩
  | addb x kk => exact ⟨_, exec_addb x kk s⟩
  | mov x y => exact ⟨_, exec_mov x y s⟩
  | or x y => exact ⟨_, exec_or x y s⟩
  | and x y => exact ⟨_, exec_and x y s⟩
  | xor x y => exact ⟨_, exec_xor x y s⟩
  | add x y => exact ⟨_, exec_add x y s⟩
  | sub x y => exact ⟨_, exec_sub x y s⟩
  | subn x y => exact ⟨_, exec_subn x y s⟩
  | shr x y => exact ⟨_, exec_shr x y s⟩
  | shl x y => exact ⟨_, exec_shl x y s⟩
  | rnd x kk => exact ⟨_, exec_rnd x kk s⟩
  | ldi nnn => exact ⟨_, exec_ldi nnn s⟩
  | addi x => exact ⟨_, exec_addi x s⟩
  | seb x kk => exact ⟨_, (exec_seb x kk s).trans (skipIf_eq _ s)⟩
  | sneb x kk => exact ⟨_, (exec_sneb x kk s).trans (skipIf_eq _ s)⟩
  | ser x y => exact ⟨_, (exec_ser x y s).trans (skipIf_eq _ s)⟩
  | sner x y => exact ⟨_, (exec_sner x y s).trans (skipIf_eq _ s)⟩
  | jmpv0 nnn => exact ⟨_, exec_jmpv0 nnn s⟩
  | stm x =>
    obtain hin | hout := Nat.lt_or_ge (s.iReg.toNat + x.toNat) Config.memSize
    · exact ⟨_, exec_stm x s hin⟩
    · exact ⟨_, (exec_stm_bounds x s hout).trans (raise_eq _ _ s)⟩
  | ldm x =>
    obtain hin | hout := Nat.lt_or_ge (s.iReg.toNat + x.toNat) Config.memSize
    · exact ⟨_, exec_ldm x s hin⟩
    · exact ⟨_, (exec_ldm_bounds x s hout).trans (raise_eq _ _ s)⟩
  | call nnn =>
    obtain hfull | hroom := Nat.lt_or_ge 15 (s.sp + 1).toNat
    · exact ⟨_, (exec_call_overflow nnn s hfull).trans (raise_eq _ _ s)⟩
    · exact ⟨_, exec_call nnn s hroom⟩
  | ret =>
    obtain hempty | hentry := Nat.lt_or_ge 15 s.sp.toNat
    · exact ⟨_, (exec_ret_underflow s hempty).trans (raise_eq _ _ s)⟩
    · exact ⟨_, exec_ret s hentry⟩

/-! ## Dispatch -/

theorem dispatch_answers_next (w : Word) (r : Byte) (s : State) : ∃ t, dispatch w r s = .next t := by
  obtain ⟨-, h⟩ | ⟨-, e, -, h⟩ | ⟨-, i, -, h⟩ := dispatch_cases w r s
  · exact ⟨_, h⟩
  · exact ⟨_, h⟩
  · rw [h]
    exact exec_answers_next i (s.setRand r)

theorem dispatchText_answers_next (text : List Char) (r : Byte) (s : State) :
    ∃ t, dispatchText text r s = .next t := by
  cases h : parseWord text with
  | error e => exact ⟨_, dispatchText_of_malformed text e r s h⟩
  | ok w =>
    rw [dispatchText_of_ok text w r s h]
    exact dispatch_answers_next w r s

/-! ## Transactions -/

/-- Settles O47, by the kind of transaction: the port and the reset input answer by definition, a dispatch
because a declined word, a declined text and every instruction's end, a halting fault included, is a state. -/
theorem everyTransactionAnswersANextState : Obligations.EveryTransactionAnswersANextState := by
  intro tr s
  cases tr with
  | dispatch w r => exact dispatch_answers_next w r s
  | dispatchText text r => exact dispatchText_answers_next text r s
  | portRead p => exact ⟨s, rfl⟩
  | portWrite p => exact ⟨portWrite p s, rfl⟩
  | reset => exact ⟨s.resetBlock, rfl⟩

end Sys2Proof.Machine
end

section
/-! PROOFS. Everything an instruction can do, said once: an instruction that answers a next state has one of nine
effects (30_encoding.md R60). The statements about the state derive from this. -/

namespace Sys2Proof.Machine

/-- The instructions that write V registers (10_state.md R13). -/
abbrev vWriters : List Mnemonic :=
  [.LDB, .ADDB, .MOV, .OR, .AND, .XOR, .ADD, .SUB, .SUBN, .SHR, .SHL, .RND, .LDM]

/-- The instructions that write I (10_state.md R16). -/
abbrev iWriters : List Mnemonic := [.LDI, .ADDI]

/-- The skip instructions (43_skip_jump.md R86 to R89). -/
abbrev skipMnemonics : List Mnemonic := [.SEB, .SNEB, .SER, .SNER]

/-- The instruction is a skip and its condition holds (43_skip_jump.md R86 to R89). -/
def SkipTaken (s : State) : Instr → Prop
  | .seb x kk => s.readV x = kk
  | .sneb x kk => s.readV x ≠ kk
  | .ser x y => s.readV x = s.readV y
  | .sner x y => s.readV x ≠ s.readV y
  | _ => False

/-- Which instruction raises which halting fault (60_exceptions.md R100). -/
inductive Raises : Instr → HaltingFault → Prop
  | call (nnn : Imm12) : Raises (.call nnn) .stackOverflow
  | ret : Raises .ret .stackUnderflow
  | stm (x : RegIx) : Raises (.stm x) .memoryBounds
  | ldm (x : RegIx) : Raises (.ldm x) .memoryBounds

/-- The effects an instruction can have on a state, one per group of the instruction set, and the entry into a
halting fault. `exec_next_effect` ties it to `exec`. -/
inductive ExecEffect (s : State) : Instr → State → Prop
  | setV {i : Instr} (v : Vector Byte 16) (hi : i.mnemonic ∈ vWriters) :
      ExecEffect s i (State.report { s with v := v } .ok false)
  | setI {i : Instr} (w : Word) (hi : i.mnemonic ∈ iWriters) : ExecEffect s i ((s.writeI w).report .ok false)
  | skip {i : Instr} (hi : i.mnemonic ∈ skipMnemonics) (hc : SkipTaken s i) :
      ExecEffect s i ((s.writePc (s.pc + 1)).report .ok true)
  | noSkip {i : Instr} (hc : ¬ SkipTaken s i) : ExecEffect s i (s.report .ok false)
  | jump (nnn : Imm12) (w : Word) : ExecEffect s (.jmpv0 nnn) ((s.writePc w).report .ok false)
  | store (x : RegIx) (hin : s.iReg.toNat + x.toNat < Config.memSize) : ExecEffect s (.stm x)
      ((s.writeMem (Memory.storeBlock s.readV (s.blockAddr 0) (blockCount x) s.mem)).report .ok false)
  | call (nnn : Imm12) (hroom : (s.sp + 1).toNat ≤ 15) : ExecEffect s (.call nnn)
      ((((s.writeSp (s.sp + 1)).writeStack (BitVec.ofNat 4 (s.sp + 1).toNat) s.pc).jumpTo
        (zextImm nnn)).report .ok false)
  | ret (hentry : s.sp.toNat ≤ 15) : ExecEffect s .ret
      (((s.writeSp (s.sp - 1)).writePc (s.readStack (BitVec.ofNat 4 s.sp.toNat))).report .ok false)
  | fault {i : Instr} {f : HaltingFault} (hf : Raises i f) :
      ExecEffect s i ((s.recordFault f (encode i)).report f.status false)

/-- A skip instruction, by its condition as the model computes it. -/
theorem skipIf_effect {i : Instr} {c : Bool} {s t : State} (hi : i.mnemonic ∈ skipMnemonics)
    (hc : c = true ↔ SkipTaken s i) (h : skipIf c s = .next t) : ExecEffect s i t := by
  rw [skipIf_eq] at h
  obtain rfl := Host.Outcome.next.inj h
  split
  · exact .skip hi (hc.1 ‹_›)
  · exact .noSkip (fun ht => ‹¬ c = true› (hc.2 ht))

/-- A raise, from the fault's name and the dispatched word. -/
theorem raise_effect {i : Instr} {f : HaltingFault} {s t : State} (hf : Raises i f)
    (h : raise f (encode i) s = .next t) : ExecEffect s i t := by
  obtain rfl := Host.Outcome.next.inj ((raise_eq f (encode i) s).symm.trans h)
  exact .fault hf

/-- An instruction that answers by an equation has the effect that the equation's right side has. -/
theorem ExecEffect.of_eq {i : Instr} {s t u : State} (h : exec i s = .next t) (hu : exec i s = .next u)
    (he : ExecEffect s i u) : ExecEffect s i t := by
  obtain rfl := Host.Outcome.next.inj (hu.symm.trans h)
  exact he

/-- Everything an instruction that answers a next state can have done. -/
theorem exec_next_effect {i : Instr} {s t : State} (h : exec i s = .next t) : ExecEffect s i t := by
  cases i with
  | ldb x kk => exact .of_eq h (exec_ldb x kk s) (.setV _ (by simp [Instr.mnemonic]))
  | addb x kk => exact .of_eq h (exec_addb x kk s) (.setV _ (by simp [Instr.mnemonic]))
  | mov x y => exact .of_eq h (exec_mov x y s) (.setV _ (by simp [Instr.mnemonic]))
  | or x y => exact .of_eq h (exec_or x y s) (.setV _ (by simp [Instr.mnemonic]))
  | and x y => exact .of_eq h (exec_and x y s) (.setV _ (by simp [Instr.mnemonic]))
  | xor x y => exact .of_eq h (exec_xor x y s) (.setV _ (by simp [Instr.mnemonic]))
  | add x y => exact .of_eq h (exec_add x y s) (.setV _ (by simp [Instr.mnemonic]))
  | sub x y => exact .of_eq h (exec_sub x y s) (.setV _ (by simp [Instr.mnemonic]))
  | subn x y => exact .of_eq h (exec_subn x y s) (.setV _ (by simp [Instr.mnemonic]))
  | shr x y => exact .of_eq h (exec_shr x y s) (.setV _ (by simp [Instr.mnemonic]))
  | shl x y => exact .of_eq h (exec_shl x y s) (.setV _ (by simp [Instr.mnemonic]))
  | rnd x kk => exact .of_eq h (exec_rnd x kk s) (.setV _ (by simp [Instr.mnemonic]))
  | ldi nnn => exact .of_eq h (exec_ldi nnn s) (.setI _ (by simp [Instr.mnemonic]))
  | addi x => exact .of_eq h (exec_addi x s) (.setI _ (by simp [Instr.mnemonic]))
  | seb x kk => exact skipIf_effect (by simp [Instr.mnemonic]) (by simp [SkipTaken]) h
  | sneb x kk => exact skipIf_effect (by simp [Instr.mnemonic]) (by simp [SkipTaken]) h
  | ser x y => exact skipIf_effect (by simp [Instr.mnemonic]) (by simp [SkipTaken]) h
  | sner x y => exact skipIf_effect (by simp [Instr.mnemonic]) (by simp [SkipTaken]) h
  | jmpv0 nnn => exact .of_eq h (exec_jmpv0 nnn s) (.jump nnn _)
  | stm x =>
    obtain hin | hout := Nat.lt_or_ge (s.iReg.toNat + x.toNat) Config.memSize
    · exact .of_eq h (exec_stm x s hin) (.store x hin)
    · exact raise_effect (.stm x) ((exec_stm_bounds x s hout).symm.trans h)
  | ldm x =>
    obtain hin | hout := Nat.lt_or_ge (s.iReg.toNat + x.toNat) Config.memSize
    · refine .of_eq h (exec_ldm x s hin) ?_
      rw [loadBlock_frame]
      exact .setV _ (by simp [Instr.mnemonic])
    · exact raise_effect (.ldm x) ((exec_ldm_bounds x s hout).symm.trans h)
  | call nnn =>
    obtain hfull | hroom := Nat.lt_or_ge 15 (s.sp + 1).toNat
    · exact raise_effect (.call nnn) ((exec_call_overflow nnn s hfull).symm.trans h)
    · exact .of_eq h (exec_call nnn s hroom) (.call nnn hroom)
  | ret =>
    obtain hempty | hentry := Nat.lt_or_ge 15 s.sp.toNat
    · exact raise_effect .ret ((exec_ret_underflow s hempty).symm.trans h)
    · exact .of_eq h (exec_ret s hentry) (.ret hentry)

/-- A text is declined with a decode status, or dispatched as a word. -/
theorem dispatchText_cases (text : List Char) (r : Byte) (s : State) :
    (∃ e, dispatchText text r s = .next (s.report (decodeStatus e) false)) ∨
    ∃ w, dispatchText text r s = dispatch w r s := by
  cases hp : parseWord text with
  | error e => exact .inl ⟨e, dispatchText_of_malformed text e r s hp⟩
  | ok w => exact .inr ⟨w, dispatchText_of_ok text w r s hp⟩

end Sys2Proof.Machine
end

section
/-! PROOFS. The invariant: it holds at reset, and a dispatch and the sequencer's advance of PC keep it
(10_state.md R19, R21; 60_exceptions.md R108; 70_reset_and_hazards.md R121). -/

namespace Sys2Proof.Machine

/-! ## Reset -/

theorem resetBlock_inv (s : State) : s.resetBlock.Inv :=
  ⟨.inl rfl, rfl, ⟨fun _ => ⟨rfl, rfl, rfl⟩, fun h => nomatch h⟩, fun h => nomatch h⟩

/-! ## Updates that keep the invariant -/

/-- On a running block SP and memory are all an update can break, as long as the record stays clear. -/
theorem State.Inv.of_running {s t : State} (hs : s.Inv) (hrun : s.halted = false) (hrec : SameRecord s t)
    (hsp : t.SpLegal) (hmem : t.MemCanonical) : t.Inv := by
  obtain ⟨hhalted, hcode, hword, hpc⟩ := hrec
  obtain ⟨-, -, ⟨hclear, -⟩, -⟩ := hs
  have hrun' : t.halted = false := hhalted.trans hrun
  refine ⟨hsp, hmem, ⟨fun _ => ?_, fun h => ?_⟩, fun h => ?_⟩
  · rw [hcode, hword, hpc]
    exact hclear hrun
  · rw [hrun'] at h
    cases h
  · rw [hrun'] at h
    cases h

/-- A dispatch declined with a status other than OK changes the outputs alone. -/
theorem State.Inv.report {s : State} (hs : s.Inv) {st : Status} (hst : st ≠ .ok) (k : Bool) :
    (s.report st k).Inv := by
  obtain ⟨hsp, hmem, hrec, -⟩ := hs
  exact ⟨hsp, hmem, hrec, fun _ => hst⟩

theorem haltingFault_status_haltsBlock (f : HaltingFault) : f.status.haltsBlock = true := by cases f <;> rfl

theorem haltingFault_status_ne_ok (f : HaltingFault) : f.status ≠ .ok := by cases f <;> decide

/-- Entry into a halting fault by an instruction that raises it writes a consistent record. -/
theorem State.Inv.raised {s : State} (hs : s.Inv) {i : Instr} {f : HaltingFault} (hf : Raises i f) :
    ((s.recordFault f (encode i)).report f.status false).Inv := by
  obtain ⟨hsp, hmem, -, -⟩ := hs
  refine ⟨hsp, hmem, ⟨fun h => (nomatch h), fun _ => ⟨rfl, ?_⟩⟩, fun _ => haltingFault_status_ne_ok f⟩
  cases hf with
  | call nnn => exact .inl ⟨rfl, nnn, rfl⟩
  | ret => exact .inr (.inl ⟨rfl, rfl⟩)
  | stm x => exact .inr (.inr ⟨rfl, x, .inl rfl⟩)
  | ldm x => exact .inr (.inr ⟨rfl, x, .inr rfl⟩)

/-- SP after a return: the entry below, or the sentinel below entry 0. -/
theorem pop_spLegal (sp : Byte) (h : sp.toNat ≤ 15) : sp - 1 = 0xFF ∨ (sp - 1).toNat ≤ 15 := by
  by_cases h0 : sp = 0
  · exact .inl (by rw [h0]; decide)
  · right
    bv_omega

/-! ## Instructions, dispatches, steps -/

theorem exec_keeps_inv {i : Instr} {s t : State} (hs : s.Inv) (hrun : s.halted = false)
    (h : exec i s = .next t) : t.Inv := by
  have keep : ∀ {u : State}, SameRecord s u → u.SpLegal → u.MemCanonical → u.Inv := hs.of_running hrun
  obtain ⟨hsp, hmem, -, -⟩ := id hs
  cases exec_next_effect h with
  | setV v hi => exact keep ⟨rfl, rfl, rfl, rfl⟩ hsp hmem
  | setI w hi => exact keep ⟨rfl, rfl, rfl, rfl⟩ hsp hmem
  | skip hi hc => exact keep ⟨rfl, rfl, rfl, rfl⟩ hsp hmem
  | noSkip hc => exact keep ⟨rfl, rfl, rfl, rfl⟩ hsp hmem
  | jump nnn w => exact keep ⟨rfl, rfl, rfl, rfl⟩ hsp hmem
  | store x hin =>
    have hblock : s.blockAddr 0 + blockCount x ≤ Config.memSize := by
      simp only [State.blockAddr, blockCount]
      omega
    exact keep ⟨rfl, rfl, rfl, rfl⟩ hsp (Memory.wf_storeBlock s.readV _ _ s.mem hblock hmem)
  | call nnn hroom => exact keep ⟨rfl, rfl, rfl, rfl⟩ (.inr hroom) hmem
  | ret hentry => exact keep ⟨rfl, rfl, rfl, rfl⟩ (pop_spLegal s.sp hentry) hmem
  | fault hf => exact hs.raised hf

theorem decodeStatus_ne_ok (e : DecodeFault) : decodeStatus e ≠ .ok := by cases e <;> decide

theorem dispatch_keeps_inv {w : Word} {r : Byte} {s t : State} (hs : s.Inv) (h : dispatch w r s = .next t) :
    t.Inv := by
  obtain ⟨-, he⟩ | ⟨-, e, -, he⟩ | ⟨hrun, i, -, he⟩ := dispatch_cases w r s
  · obtain rfl := Host.Outcome.next.inj (he.symm.trans h)
    exact hs.report (by decide) false
  · obtain rfl := Host.Outcome.next.inj (he.symm.trans h)
    exact hs.report (decodeStatus_ne_ok e) false
  · have hs' : (s.setRand r).Inv := hs
    exact exec_keeps_inv hs' hrun (he.symm.trans h)

theorem dispatchText_keeps_inv {text : List Char} {r : Byte} {s t : State} (hs : s.Inv)
    (h : dispatchText text r s = .next t) : t.Inv := by
  obtain ⟨e, he⟩ | ⟨w, hw⟩ := dispatchText_cases text r s
  · obtain rfl := Host.Outcome.next.inj (he.symm.trans h)
    exact hs.report (decodeStatus_ne_ok e) false
  · exact dispatch_keeps_inv hs (hw.symm.trans h)

/-- PC advances only after an OK dispatch, so never past a halted block's `FAULT_PC`. -/
theorem State.Inv.afterDispatch {t : State} (ht : t.Inv) : t.afterDispatch.Inv := by
  unfold State.afterDispatch
  split
  · next hok =>
    obtain ⟨hsp, hmem, -, hreported⟩ := id ht
    have hrun : t.halted = false := Bool.eq_false_iff.2 (fun hh => hreported hh hok)
    exact ht.of_running hrun ⟨rfl, rfl, rfl, rfl⟩ hsp hmem
  · exact ht

/-! ## The obligations -/

/-- Settles O3: the step is a dispatch, which keeps the invariant by the effects of an instruction, and an
advance of PC that a halted block does not take. -/
theorem everyStepKeepsTheInvariant : Obligations.EveryStepKeepsTheInvariant := by
  intro s s' hs h
  obtain ⟨-, w, t, -, hd, rfl⟩ := step_next_cases s s' h
  have hdraw : s.afterDraw.Inv := hs
  exact (dispatch_keeps_inv hdraw hd).afterDispatch

/-- Settles O4, by the kind of transaction. -/
theorem everyTransactionButAPortWriteKeepsTheInvariant :
    Obligations.EveryTransactionButAPortWriteKeepsTheInvariant := by
  intro tr s t hport hs h
  cases tr with
  | dispatch w r => exact dispatch_keeps_inv hs h
  | dispatchText text r => exact dispatchText_keeps_inv hs h
  | portRead p => exact Host.Outcome.next.inj h ▸ hs
  | portWrite p => exact absurd rfl (hport p)
  | reset => exact Host.Outcome.next.inj h ▸ resetBlock_inv s

/-- Settles O2: the reset state is the reset input's answer from itself. -/
theorem resetMeetsTheInvariant : Obligations.ResetMeetsTheInvariant := resetBlock_inv State.reset

/-- Settles O1: both states hold the fields of the reset table. -/
theorem resetGivesTheCreationState : Obligations.ResetGivesTheCreationState := by
  refine fun s => ⟨s.resetBlock, rfl, fun u hu => ?_⟩
  obtain rfl | rfl : u = s.resetBlock ∨ u = State.reset := by simpa using hu
  all_goals
    exact ⟨State.reset_readV, rfl, rfl, State.reset_readStack, rfl, fun a _ => Memory.read_nil a, rfl, rfl, rfl, rfl⟩

end Sys2Proof.Machine
end

section
/-! PROOFS. What an instruction writes: the skip output, the fault record, the writers of each register
(10_state.md R13 to R29; 60_exceptions.md R106, R112). -/

namespace Sys2Proof.Machine

/-! ## The skip output (10_state.md R29) -/

/-- `SKIP` and PC after a dispatch on which the skip condition `c` is the one that counts. -/
def SkipOutput (c : Prop) (s t : State) : Prop := (t.skip = true ↔ c) ∧ (t.skip = true → t.pc = s.pc + 1)

theorem skipOutput_of_not {c : Prop} {s t : State} (ht : t.skip = false) (hc : ¬ c) : SkipOutput c s t := by
  simp [SkipOutput, ht, hc]

theorem SkipTaken.mnemonic_mem {s : State} {i : Instr} (h : SkipTaken s i) : i.mnemonic ∈ skipMnemonics := by
  cases i with
  | seb x kk => simp [Instr.mnemonic]
  | sneb x kk => simp [Instr.mnemonic]
  | ser x y => simp [Instr.mnemonic]
  | sner x y => simp [Instr.mnemonic]
  | _ => exact h.elim

theorem exec_skipOutput {i : Instr} {s t : State} (h : exec i s = .next t) : SkipOutput (SkipTaken s i) s t := by
  have other : ∀ {ms : List Mnemonic}, (∀ m ∈ ms, m ∉ skipMnemonics) → i.mnemonic ∈ ms → ¬ SkipTaken s i :=
    fun hms hi hc => hms _ hi hc.mnemonic_mem
  cases exec_next_effect h with
  | setV v hi => exact skipOutput_of_not rfl (other (by decide) hi)
  | setI w hi => exact skipOutput_of_not rfl (other (by decide) hi)
  | skip hi hc => exact ⟨iff_of_true rfl hc, fun _ => rfl⟩
  | noSkip hc => exact skipOutput_of_not rfl hc
  | jump nnn w => exact skipOutput_of_not rfl id
  | store x hin => exact skipOutput_of_not rfl id
  | call nnn hroom => exact skipOutput_of_not rfl id
  | ret hentry => exact skipOutput_of_not rfl id
  | fault hf => exact skipOutput_of_not rfl (fun hc => by cases hf <;> exact hc)

theorem dispatch_skipOutput {w : Word} {r : Byte} {s t : State} (h : dispatch w r s = .next t) :
    SkipOutput (s.halted = false ∧ ∃ i, decode w = .ok i ∧ SkipTaken s i) s t := by
  obtain ⟨hhalted, he⟩ | ⟨-, e, hd, he⟩ | ⟨hrun, i, hd, he⟩ := dispatch_cases w r s
  · obtain rfl := Host.Outcome.next.inj (he.symm.trans h)
    exact skipOutput_of_not rfl (by simp [hhalted])
  · obtain rfl := Host.Outcome.next.inj (he.symm.trans h)
    exact skipOutput_of_not rfl (by simp [hd])
  · have hexec := exec_skipOutput (he.symm.trans h)
    have htaken : SkipTaken (s.setRand r) i ↔ SkipTaken s i := by cases i <;> rfl
    simpa [SkipOutput, hrun, hd, htaken] using hexec

/-- The taken skips by form, for a decoder's answer. -/
theorem exists_skipTaken_iff (d : Except DecodeFault Instr) (s : State) :
    (∃ i, d = .ok i ∧ SkipTaken s i) ↔
      (∃ x kk, d = .ok (.seb x kk) ∧ s.readV x = kk) ∨ (∃ x kk, d = .ok (.sneb x kk) ∧ s.readV x ≠ kk) ∨
      (∃ x y, d = .ok (.ser x y) ∧ s.readV x = s.readV y) ∨
      (∃ x y, d = .ok (.sner x y) ∧ s.readV x ≠ s.readV y) := by
  constructor
  · rintro ⟨i, hd, hc⟩
    cases i with
    | seb x kk => exact .inl ⟨x, kk, hd, hc⟩
    | sneb x kk => exact .inr (.inl ⟨x, kk, hd, hc⟩)
    | ser x y => exact .inr (.inr (.inl ⟨x, y, hd, hc⟩))
    | sner x y => exact .inr (.inr (.inr ⟨x, y, hd, hc⟩))
    | _ => exact hc.elim
  · rintro (⟨_, _, hd, hc⟩ | ⟨_, _, hd, hc⟩ | ⟨_, _, hd, hc⟩ | ⟨_, _, hd, hc⟩)
    all_goals exact ⟨_, hd, hc⟩

/-- Settles O45, by the effects of an instruction: only a taken skip sets `SKIP`. -/
theorem skipOutputIsExactlyATakenSkip : Obligations.SkipOutputIsExactlyATakenSkip := by
  intro w r s t h
  obtain ⟨hskip, hpc⟩ := dispatch_skipOutput h
  rw [exists_skipTaken_iff] at hskip
  refine ⟨hskip, fun ht => ?_⟩
  rw [hpc ht, BitVec.toNat_add]
  rfl

/-! ## The fault record (10_state.md R21) -/

/-- The block has entered a halting fault, reported it and recorded it at its PC (60_exceptions.md R108). -/
def EnteredFault (s t : State) : Prop :=
  t.halted = true ∧ t.status.haltsBlock = true ∧ t.faultCode = t.status.code ∧ t.faultPc = s.pc

theorem exec_keeps_or_enters_record {i : Instr} {s t : State} (h : exec i s = .next t) :
    SameRecord s t ∨ EnteredFault s t := by
  cases exec_next_effect h with
  | @fault _ f hf => exact .inr ⟨rfl, haltingFault_status_haltsBlock f, rfl, rfl⟩
  | _ => exact .inl ⟨rfl, rfl, rfl, rfl⟩

/-- A dispatch to a halted block is declined; to a running one it is declined or is one instruction's effect. -/
theorem dispatch_record {w : Word} {r : Byte} {s t : State} (h : dispatch w r s = .next t) :
    SameRecord s t ∨ s.halted = false ∧ EnteredFault s t := by
  obtain ⟨-, he⟩ | ⟨-, e, -, he⟩ | ⟨hrun, i, -, he⟩ := dispatch_cases w r s
  · obtain rfl := Host.Outcome.next.inj (he.symm.trans h)
    exact .inl ⟨rfl, rfl, rfl, rfl⟩
  · obtain rfl := Host.Outcome.next.inj (he.symm.trans h)
    exact .inl ⟨rfl, rfl, rfl, rfl⟩
  · obtain hsame | hfault := exec_keeps_or_enters_record (he.symm.trans h)
    · exact .inl hsame
    · exact .inr ⟨hrun, hfault⟩

theorem dispatchText_record {text : List Char} {r : Byte} {s t : State} (h : dispatchText text r s = .next t) :
    SameRecord s t ∨ s.halted = false ∧ EnteredFault s t := by
  obtain ⟨e, he⟩ | ⟨w, hw⟩ := dispatchText_cases text r s
  · obtain rfl := Host.Outcome.next.inj (he.symm.trans h)
    exact .inl ⟨rfl, rfl, rfl, rfl⟩
  · exact dispatch_record (hw.symm.trans h)

/-- No port write reaches the record (10_state.md R27). -/
theorem portWrite_sameRecord (p : PortWrite) (s : State) : SameRecord s (portWrite p s) := by
  cases p <;> exact ⟨rfl, rfl, rfl, rfl⟩

theorem transact_record {tr : Transaction} {s t : State} (hr : tr ≠ .reset) (h : transact tr s = .next t) :
    SameRecord s t ∨ s.halted = false ∧ EnteredFault s t := by
  cases tr with
  | dispatch w r => exact dispatch_record h
  | dispatchText text r => exact dispatchText_record h
  | portRead q => exact .inl (Host.Outcome.next.inj h ▸ ⟨rfl, rfl, rfl, rfl⟩)
  | portWrite p => exact .inl (Host.Outcome.next.inj h ▸ portWrite_sameRecord p s)
  | reset => exact absurd rfl hr

/-- Settles O46, by the kind of transaction: a halted block's record stands, a running block's is written by the
entry into a halting fault alone. -/
theorem onlyResetClearsTheFaultRecord : Obligations.OnlyResetClearsTheFaultRecord := by
  intro tr s t hr h
  obtain hsame | ⟨hrun, hfault⟩ := transact_record hr h
  · exact ⟨fun _ => hsame, fun _ => .inl hsame⟩
  · exact ⟨fun hhalted => by simp [hrun] at hhalted, fun _ => .inr hfault⟩

/-! ## The writers of each register -/

/-- Settles O48, by the effects of an instruction: each writes the places of its group and no other. -/
theorem eachRegisterHasOnlyItsWriters : Obligations.EachRegisterHasOnlyItsWriters := by
  intro i s t h
  have pcWriter : i.mnemonic ∈ skipMnemonics →
      i.mnemonic ∈ [Mnemonic.SEB, .SNEB, .SER, .SNER, .JMPV0, .CALL, .RET] :=
    fun hi => List.mem_append_left [Mnemonic.JMPV0, .CALL, .RET] hi
  cases exec_next_effect h with
  | setV v hi =>
    exact ⟨fun _ => hi, absurd rfl, absurd rfl, absurd rfl, absurd rfl, absurd rfl, rfl, rfl, rfl, rfl⟩
  | setI w hi =>
    exact ⟨absurd fun _ => rfl, fun _ => hi, absurd rfl, absurd rfl, absurd rfl, absurd rfl, rfl, rfl, rfl, rfl⟩
  | skip hi hc =>
    exact ⟨absurd fun _ => rfl, absurd rfl, fun _ => pcWriter hi, absurd rfl, absurd rfl, absurd rfl,
      rfl, rfl, rfl, rfl⟩
  | noSkip hc =>
    exact ⟨absurd fun _ => rfl, absurd rfl, absurd rfl, absurd rfl, absurd rfl, absurd rfl, rfl, rfl, rfl, rfl⟩
  | jump nnn w =>
    exact ⟨absurd fun _ => rfl, absurd rfl, fun _ => by simp [Instr.mnemonic], absurd rfl, absurd rfl, absurd rfl,
      rfl, rfl, rfl, rfl⟩
  | store x hin =>
    exact ⟨absurd fun _ => rfl, absurd rfl, absurd rfl, absurd rfl, absurd rfl, fun _ => rfl, rfl, rfl, rfl, rfl⟩
  | call nnn hroom =>
    exact ⟨absurd fun _ => rfl, absurd rfl, fun _ => by simp [Instr.mnemonic], fun _ => rfl,
      fun _ => by simp [Instr.mnemonic], absurd rfl, rfl, rfl, rfl, rfl⟩
  | ret hentry =>
    exact ⟨absurd fun _ => rfl, absurd rfl, fun _ => by simp [Instr.mnemonic], absurd rfl,
      fun _ => by simp [Instr.mnemonic], absurd rfl, rfl, rfl, rfl, rfl⟩
  | fault hf =>
    exact ⟨absurd fun _ => rfl, absurd rfl, absurd rfl, absurd rfl, absurd rfl, absurd rfl, rfl, rfl, rfl, rfl⟩

/-! ## The random byte (10_state.md R25) -/

/-- An outcome with another byte at the RAND input of its next state. -/
def outcomeSetRand (r : Byte) : Host.Outcome State Fault Refusal → Host.Outcome State Fault Refusal
  | .next t => .next (t.setRand r)
  | o => o

theorem skipIf_setRand (c : Bool) (s : State) (r : Byte) :
    skipIf c (s.setRand r) = outcomeSetRand r (skipIf c s) := by
  cases c <;> rfl

theorem loadBlock_setRand (m : Memory) (base n : Nat) (s : State) (r : Byte) :
    State.loadBlock m base n (s.setRand r) = (State.loadBlock m base n s).setRand r := by
  induction n with
  | zero => rfl
  | succ n ih =>
    rw [State.loadBlock, ih]
    rfl

/-- An instruction that does not read RAND commutes with a change of the byte there. -/
theorem exec_setRand {i : Instr} (hi : i.mnemonic ≠ .RND) (r : Byte) (s : State) :
    exec i (s.setRand r) = outcomeSetRand r (exec i s) := by
  cases i with
  | rnd x kk => exact absurd rfl hi
  | seb x kk => exact skipIf_setRand _ s r
  | sneb x kk => exact skipIf_setRand _ s r
  | ser x y => exact skipIf_setRand _ s r
  | sner x y => exact skipIf_setRand _ s r
  | stm x =>
    obtain hin | hout := Nat.lt_or_ge (s.iReg.toNat + x.toNat) Config.memSize
    · rw [exec_stm x s hin, exec_stm x (s.setRand r) hin]
      rfl
    · rw [exec_stm_bounds x s hout, exec_stm_bounds x (s.setRand r) hout]
      rfl
  | ldm x =>
    obtain hin | hout := Nat.lt_or_ge (s.iReg.toNat + x.toNat) Config.memSize
    · rw [exec_ldm x s hin, exec_ldm x (s.setRand r) hin, loadBlock_setRand]
      rfl
    · rw [exec_ldm_bounds x s hout, exec_ldm_bounds x (s.setRand r) hout]
      rfl
  | call nnn =>
    obtain hfull | hroom := Nat.lt_or_ge 15 (s.sp + 1).toNat
    · rw [exec_call_overflow nnn s hfull, exec_call_overflow nnn (s.setRand r) hfull]
      rfl
    · rw [exec_call nnn s hroom, exec_call nnn (s.setRand r) hroom]
      rfl
  | ret =>
    obtain hempty | hentry := Nat.lt_or_ge 15 s.sp.toNat
    · rw [exec_ret_underflow s hempty, exec_ret_underflow (s.setRand r) hempty]
      rfl
    · rw [exec_ret s hentry, exec_ret (s.setRand r) hentry]
      rfl
  | _ => rfl

/-- Settles O50: every other instruction commutes with a change of the byte. -/
theorem onlyRndReadsTheRandomByte : Obligations.OnlyRndReadsTheRandomByte := by
  intro i r s t hi h
  rw [exec_setRand hi, h]
  rfl

end Sys2Proof.Machine
end

section
/-! PROOFS. The canonical form of memory determines it (log 6), and the state access port (10_state.md R27). -/

namespace Sys2Proof.Machine

/-! ## Canonical memories -/

/-- A canonical memory reads differently at its first address from one that lists higher addresses only. -/
theorem Memory.read_ne_of_first {lo hi a : Nat} {b : Byte} {m n : Memory}
    (hm : Memory.wfFrom lo ((a, b) :: m) = true) (hn : Memory.wfFrom hi n = true) (h : a < hi) :
    Memory.read ((a, b) :: m) a ≠ Memory.read n a := by
  obtain ⟨-, -, hb, -⟩ := (Memory.wfFrom_cons lo a b m).1 hm
  rwa [Memory.read_cons, if_pos rfl, Memory.read_below n hn h]

/-- A canonical memory is canonical from its own first address on. -/
theorem Memory.wfFrom_first {lo a : Nat} {b : Byte} {m : Memory} (h : Memory.wfFrom lo ((a, b) :: m) = true) :
    Memory.wfFrom a ((a, b) :: m) = true := by
  rw [Memory.wfFrom_cons] at h ⊢
  exact ⟨le_rfl, h.2⟩

/-- Tails of canonical memories that share their first address read alike if the memories do. -/
theorem Memory.read_tail_eq {a : Nat} {b d : Byte} {m n : Memory} (hm : Memory.wfFrom (a + 1) m = true)
    (hn : Memory.wfFrom (a + 1) n = true)
    (h : ∀ k, Memory.read ((a, b) :: m) k = Memory.read ((a, d) :: n) k) (k : Nat) :
    Memory.read m k = Memory.read n k := by
  by_cases hk : a = k
  · rw [Memory.read_below m hm (by omega), Memory.read_below n hn (by omega)]
  · simpa [Memory.read_cons, hk] using h k

theorem Memory.eq_of_read_eq {lo : Nat} {m n : Memory} (hm : Memory.wfFrom lo m = true)
    (hn : Memory.wfFrom lo n = true) (h : ∀ a, Memory.read m a = Memory.read n a) : m = n := by
  induction m generalizing n lo with
  | nil =>
    cases n with
    | nil => rfl
    | cons c n => exact absurd (h c.1).symm (Memory.read_ne_of_first hn (hi := c.1 + 1) rfl (by omega))
  | cons c m ih =>
    obtain ⟨a, b⟩ := c
    cases n with
    | nil => exact absurd (h a) (Memory.read_ne_of_first hm (hi := a + 1) rfl (by omega))
    | cons c' n =>
      obtain ⟨a', b'⟩ := c'
      obtain hlt | rfl | hgt := Nat.lt_trichotomy a a'
      · exact absurd (h a) (Memory.read_ne_of_first hm (Memory.wfFrom_first hn) hlt)
      · obtain ⟨-, -, -, hm'⟩ := (Memory.wfFrom_cons lo a b m).1 hm
        obtain ⟨-, -, -, hn'⟩ := (Memory.wfFrom_cons lo a b' n).1 hn
        have hb : b = b' := by simpa [Memory.read_cons] using h a
        rw [hb, ih hm' hn' (Memory.read_tail_eq hm' hn' h)]
      · exact absurd (h a').symm (Memory.read_ne_of_first hn (Memory.wfFrom_first hm) hgt)

/-- Settles O52, by induction on the first memory from a lower bound on its addresses. -/
theorem canonicalMemoriesThatReadAlikeAreEqual : Obligations.CanonicalMemoriesThatReadAlikeAreEqual :=
  fun _ _ hm hn h => Memory.eq_of_read_eq hm hn h

/-! ## The state access port -/

/-- A port write puts its value at its place, and every other piece of the state is as it was. -/
theorem portWrite_writes (p : PortWrite) (s : State) : PortWrites p s (portWrite p s) := by
  have hstack : SameStack s s := ⟨rfl, fun _ => rfl⟩
  have hmem : SameMem s s := fun _ => rfl
  have hrec : SameRecord s s := ⟨rfl, rfl, rfl, rfl⟩
  have hin : SameInputs s s := ⟨rfl, rfl, rfl, rfl⟩
  have hv : SameV s s := fun _ => rfl
  cases p with
  | v x b => exact ⟨by simp [portWrite], fun r hr => by simp [portWrite, hr], rfl, rfl, hstack, hmem, hrec, hin⟩
  | i w => exact ⟨rfl, hv, rfl, hstack, hmem, hrec, hin⟩
  | pc w => exact ⟨rfl, hv, rfl, hstack, hmem, hrec, hin⟩
  | sp b => exact ⟨rfl, fun _ => rfl, hv, rfl, rfl, hmem, hrec, hin⟩
  | stack j w =>
    exact ⟨by simp [portWrite], fun k hk => by simp [portWrite, hk], rfl, hv, rfl, rfl, hmem, hrec, hin⟩
  | mem a b =>
    exact ⟨fun hs => Memory.read_write_self_from s.mem b hs, fun k hk => Memory.read_write_ne s.mem b hk.symm,
      hv, rfl, rfl, hstack, hrec, hin⟩

/-- The place written reads as the value written. -/
theorem portRead_portWrite_self (p : PortWrite) (s : State) (hs : s.MemCanonical) :
    portRead (portPlaceOf p) (portWrite p s) = portValueOf p := by
  have h := portWrite_writes p s
  cases p with
  | v x b =>
    obtain ⟨hat, -⟩ := h
    exact congrArg BitVec.toNat hat
  | i w => rfl
  | pc w => rfl
  | sp b => rfl
  | stack j w =>
    obtain ⟨hat, -⟩ := h
    exact congrArg BitVec.toNat hat
  | mem a b =>
    obtain ⟨hat, -⟩ := h
    exact congrArg BitVec.toNat (hat hs)

/-- Every other place reads as before. -/
theorem portRead_portWrite_ne (p : PortWrite) (s : State) (q : PortPlace) (hq : q ≠ portPlaceOf p) :
    portRead q (portWrite p s) = portRead q s := by
  have h := portWrite_writes p s
  cases p with
  | v x b =>
    obtain ⟨-, hother, -⟩ := h
    cases q with
    | v r => exact congrArg BitVec.toNat (hother r (fun e => hq (congrArg PortPlace.v e)))
    | _ => rfl
  | i w =>
    cases q with
    | i => exact absurd rfl hq
    | _ => rfl
  | pc w =>
    cases q with
    | pc => exact absurd rfl hq
    | _ => rfl
  | sp b =>
    cases q with
    | sp => exact absurd rfl hq
    | _ => rfl
  | stack j w =>
    obtain ⟨-, hother, -⟩ := h
    cases q with
    | stack k => exact congrArg BitVec.toNat (hother k (fun e => hq (congrArg PortPlace.stack e)))
    | _ => rfl
  | mem a b =>
    obtain ⟨-, hother, -⟩ := h
    cases q with
    | mem k => exact congrArg BitVec.toNat (hother k.val (fun e => hq (congrArg PortPlace.mem (Fin.ext e))))
    | _ => rfl

/-- A port address is in bounds by its type, so canonical memory stays canonical. -/
theorem portWrite_memCanonical (p : PortWrite) (s : State) (hs : s.MemCanonical) :
    (portWrite p s).MemCanonical := by
  cases p with
  | mem a b => exact Memory.wf_write s.mem b a.isLt hs
  | _ => exact hs

/-- A port write leaves the outputs (log 2) and the inputs alone. -/
theorem portWrite_signals (p : PortWrite) (s : State) :
    (portWrite p s).status = s.status ∧ (portWrite p s).skip = s.skip ∧ SameInputs s (portWrite p s) := by
  cases p <;> exact ⟨rfl, rfl, rfl, rfl, rfl, rfl⟩

/-- Settles O51: each write by its place, each read as the state holds it. -/
theorem portWritesOnlyItsPlace : Obligations.PortWritesOnlyItsPlace := by
  intro s
  refine ⟨fun p => ⟨portWrite p s, rfl, portWrite_writes p s, ?_⟩, fun p hs => ⟨portWrite p s, rfl,
    portRead_portWrite_self p s hs, portRead_portWrite_ne p s, ?_⟩, fun _ => rfl, fun _ => rfl, rfl, rfl, rfl,
    fun _ => rfl, fun _ => rfl, ?_, rfl, rfl, rfl⟩
  · obtain ⟨hstatus, hskip, -⟩ := portWrite_signals p s
    exact ⟨hstatus, hskip⟩
  · obtain ⟨hstatus, hskip, hin⟩ := portWrite_signals p s
    exact ⟨hstatus, hskip, hin, portWrite_memCanonical p s hs⟩
  · cases h : s.halted <;> simp [portRead, h]

end Sys2Proof.Machine
end

section
/-! PROOFS. The text front-end (10_state.md R26). -/

namespace Sys2Proof

/-! ## Hex digits -/

theorem hexDigit_decimal {c : Char} (h : 48 ≤ c.toNat ∧ c.toNat ≤ 57) :
    hexDigit c = some (BitVec.ofNat 4 (c.toNat - 48)) := by
  simp [hexDigit, h]

theorem hexDigit_upper {c : Char} (h : 65 ≤ c.toNat ∧ c.toNat ≤ 70) :
    hexDigit c = some (BitVec.ofNat 4 (c.toNat - 55)) := by
  have h0 : ¬ (48 ≤ c.toNat ∧ c.toNat ≤ 57) := by omega
  simp only [hexDigit, if_neg h0, if_pos h]

theorem hexDigit_lower {c : Char} (h : 97 ≤ c.toNat ∧ c.toNat ≤ 102) :
    hexDigit c = some (BitVec.ofNat 4 (c.toNat - 87)) := by
  have h0 : ¬ (48 ≤ c.toNat ∧ c.toNat ≤ 57) := by omega
  have h1 : ¬ (65 ≤ c.toNat ∧ c.toNat ≤ 70) := by omega
  simp only [hexDigit, if_neg h0, if_neg h1, if_pos h]

theorem hexDigit_ranges {c : Char} (h : (hexDigit c).isSome = true) :
    (48 ≤ c.toNat ∧ c.toNat ≤ 57) ∨ (65 ≤ c.toNat ∧ c.toNat ≤ 70) ∨ (97 ≤ c.toNat ∧ c.toNat ≤ 102) := by
  unfold hexDigit at h
  by_contra hno
  rw [not_or, not_or] at hno
  obtain ⟨h0, h1, h2⟩ := hno
  simp [h0, h1, h2] at h

/-- A digit's value below 16 is its 4-bit value. -/
theorem map_toNat_some_ofNat {n : Nat} (h : n < 16) :
    (some (BitVec.ofNat 4 n)).map BitVec.toNat = some n := by
  simp [Nat.mod_eq_of_lt h]

/-! ## Four digits -/

theorem parseWord_of_digits {a b c d : Char} {p q m n : BitVec 4} (ha : hexDigit a = some p)
    (hb : hexDigit b = some q) (hc : hexDigit c = some m) (hd : hexDigit d = some n) :
    parseWord [a, b, c, d] = .ok (wordOfDigits p q m n) := by
  simp [parseWord, ha, hb, hc, hd]

/-- An accepted text has four characters, each a hex digit. -/
theorem parseWord_ok {text : List Char} {w : Word} (h : parseWord text = .ok w) :
    text.length = 4 ∧ ∀ c ∈ text, hexDigit c ≠ none := by
  unfold parseWord at h
  split at h
  · split at h
    · next ha hb hc hd => simp [ha, hb, hc, hd]
    · cases h
  · cases h

/-- A text is refused with one name only. -/
theorem parseWord_error {text : List Char} {e : DecodeFault} (h : parseWord text = .error e) :
    e = .malformedInstruction := by
  unfold parseWord at h
  split at h
  · split at h
    · cases h
    · exact (Except.error.inj h).symm
  · exact (Except.error.inj h).symm

/-- A text of another length, or with another character, is malformed. -/
theorem parseWord_malformed {text : List Char} (h : text.length ≠ 4 ∨ ∃ c ∈ text, hexDigit c = none) :
    parseWord text = .error .malformedInstruction := by
  cases hp : parseWord text with
  | error e => rw [parseWord_error hp]
  | ok w =>
    obtain ⟨hlen, hdigits⟩ := parseWord_ok hp
    obtain hne | ⟨c, hc, hnone⟩ := h
    · exact absurd hlen hne
    · exact absurd hnone (hdigits c hc)

end Sys2Proof

namespace Sys2Proof.Machine

/-- A declined dispatch reports its status and changes no state. -/
theorem report_endsUnchanged (st : Status) (s : State) : EndsUnchanged st s (s.report st false) :=
  ⟨rfl, rfl, ⟨fun _ => rfl, rfl, rfl, ⟨rfl, fun _ => rfl⟩, fun _ => rfl⟩, rfl, rfl, rfl, rfl⟩

/-- Settles O44, by the three ranges of hex digits, the four digits of a word, and what a text can be. -/
theorem textFrontEndReadsFourHexDigits : Obligations.TextFrontEndReadsFourHexDigits := by
  refine ⟨fun c => ⟨fun h => ?_, fun h => ?_, fun h => ?_, hexDigit_ranges⟩, ?_, ?_, ?_⟩
  · rw [hexDigit_decimal h, map_toNat_some_ofNat (by omega)]
  · rw [hexDigit_upper h, map_toNat_some_ofNat (by omega), show c.toNat - 55 = c.toNat - 65 + 10 by omega]
  · rw [hexDigit_lower h, map_toNat_some_ofNat (by omega), show c.toNat - 87 = c.toNat - 97 + 10 by omega]
  · intro a b c d p q m n ha hb hc hd
    exact ⟨_, parseWord_of_digits ha hb hc hd, wordOfDigits_toNat p q m n⟩
  · intro text w h r s
    exact dispatchText_of_ok text w r s h
  · intro text h r s
    exact ⟨_, dispatchText_of_malformed text _ r s (parseWord_malformed h), report_endsUnchanged _ s⟩

end Sys2Proof.Machine
end

section
/-! PROOFS. What reaches data memory, and what a step does to the environment (20_memory.md R34, R46;
70_reset_and_hazards.md R122). -/

namespace Sys2Proof.Machine

/-! ## Data memory (20_memory.md R34) -/

/-- An outcome with another memory in its next state. -/
def outcomeWriteMem (m : Memory) : Host.Outcome State Fault Refusal → Host.Outcome State Fault Refusal
  | .next t => .next (t.writeMem m)
  | o => o

theorem skipIf_writeMem (c : Bool) (s : State) (m : Memory) :
    skipIf c (s.writeMem m) = outcomeWriteMem m (skipIf c s) := by
  cases c <;> rfl

/-- An instruction that is no block transfer commutes with a change of the memory. -/
theorem exec_writeMem {i : Instr} (hstm : i.mnemonic ≠ .STM) (hldm : i.mnemonic ≠ .LDM) (m : Memory) (s : State) :
    exec i (s.writeMem m) = outcomeWriteMem m (exec i s) := by
  cases i with
  | stm x => exact absurd rfl hstm
  | ldm x => exact absurd rfl hldm
  | seb x kk => exact skipIf_writeMem _ s m
  | sneb x kk => exact skipIf_writeMem _ s m
  | ser x y => exact skipIf_writeMem _ s m
  | sner x y => exact skipIf_writeMem _ s m
  | call nnn =>
    obtain hfull | hroom := Nat.lt_or_ge 15 (s.sp + 1).toNat
    · rw [exec_call_overflow nnn s hfull, exec_call_overflow nnn (s.writeMem m) hfull]
      rfl
    · rw [exec_call nnn s hroom, exec_call nnn (s.writeMem m) hroom]
      rfl
  | ret =>
    obtain hempty | hentry := Nat.lt_or_ge 15 s.sp.toNat
    · rw [exec_ret_underflow s hempty, exec_ret_underflow (s.writeMem m) hempty]
      rfl
    · rw [exec_ret s hentry, exec_ret (s.writeMem m) hentry]
      rfl
  | _ => rfl

/-- Settles O49: STM is the one writer of memory, and an instruction that is no block transfer commutes with a
change of the memory. -/
theorem onlyBlockTransfersReachMemory : Obligations.OnlyBlockTransfersReachMemory := by
  intro i m s t hstm hldm h
  obtain ⟨-, -, -, -, -, hwriter, -⟩ := eachRegisterHasOnlyItsWriters i s t h
  refine ⟨not_not.1 (mt hwriter hstm), ?_⟩
  rw [exec_writeMem hstm hldm, h]
  rfl

/-! ## The environment (70_reset_and_hazards.md R122) -/

/-- The program, the random bytes left and the count of draws, which no dispatch changes. -/
def SameEnvironment (s t : State) : Prop := t.prog = s.prog ∧ t.rands = s.rands ∧ t.draws = s.draws

theorem dispatch_sameEnvironment {w : Word} {r : Byte} {s t : State} (h : dispatch w r s = .next t) :
    SameEnvironment s t := by
  obtain ⟨-, he⟩ | ⟨-, e, -, he⟩ | ⟨-, i, -, he⟩ := dispatch_cases w r s
  · obtain rfl := Host.Outcome.next.inj (he.symm.trans h)
    exact ⟨rfl, rfl, rfl⟩
  · obtain rfl := Host.Outcome.next.inj (he.symm.trans h)
    exact ⟨rfl, rfl, rfl⟩
  · obtain ⟨-, -, -, -, -, -, -, henv⟩ := eachRegisterHasOnlyItsWriters i (s.setRand r) t (he.symm.trans h)
    exact henv

theorem afterDispatch_sameEnvironment (t : State) : SameEnvironment t t.afterDispatch := by
  unfold State.afterDispatch
  split <;> exact ⟨rfl, rfl, rfl⟩

/-- Settles O57: a step draws once, and neither its dispatch nor the advance of PC changes the environment. -/
theorem noStepChangesTheProgram : Obligations.NoStepChangesTheProgram := by
  intro s s' h
  obtain ⟨-, w, t, -, hd, rfl⟩ := step_next_cases s s' h
  obtain ⟨hprog, hrands, hdraws⟩ := dispatch_sameEnvironment hd
  obtain ⟨hprog', hrands', hdraws'⟩ := afterDispatch_sameEnvironment t
  exact ⟨hprog'.trans hprog, hdraws'.trans hdraws, hrands'.trans hrands⟩

end Sys2Proof.Machine
end

section
/-! PROOFS. The decision tree (30_encoding.md R57), leaf by leaf: decode and encode undo each other, the minor
opcodes of the `8xyN` group, the unassigned words. -/

namespace Sys2Proof

open Sys2Proof.Machine

/-! ## One equation per major opcode -/

theorem decode_op0 {w : Word} (h : opField w = 0x0) :
    decode w = if w = 0x00EE#16 then .ok .ret else .error .unknownInstruction := by
  simp [decode, h]

theorem decode_op2 {w : Word} (h : opField w = 0x2) : decode w = .ok (.call (nnnField w)) := by
  simp [decode, h]

theorem decode_op3 {w : Word} (h : opField w = 0x3) : decode w = .ok (.seb (xField w) (kkField w)) := by
  simp [decode, h]

theorem decode_op4 {w : Word} (h : opField w = 0x4) : decode w = .ok (.sneb (xField w) (kkField w)) := by
  simp [decode, h]

theorem decode_op5 {w : Word} (h : opField w = 0x5) :
    decode w = if nField w = 0x0 then .ok (.ser (xField w) (yField w)) else .error .unknownInstruction := by
  simp [decode, h]

theorem decode_op6 {w : Word} (h : opField w = 0x6) : decode w = .ok (.ldb (xField w) (kkField w)) := by
  simp [decode, h]

theorem decode_op7 {w : Word} (h : opField w = 0x7) : decode w = .ok (.addb (xField w) (kkField w)) := by
  simp [decode, h]

theorem decode_op8 {w : Word} (h : opField w = 0x8) : decode w = decodeAlu (xField w) (yField w) (nField w) := by
  simp [decode, h]

theorem decode_op9 {w : Word} (h : opField w = 0x9) :
    decode w = if nField w = 0x0 then .ok (.sner (xField w) (yField w)) else .error .unknownInstruction := by
  simp [decode, h]

theorem decode_opA {w : Word} (h : opField w = 0xA) : decode w = .ok (.ldi (nnnField w)) := by
  simp [decode, h]

theorem decode_opB {w : Word} (h : opField w = 0xB) : decode w = .ok (.jmpv0 (nnnField w)) := by
  simp [decode, h]

theorem decode_opC {w : Word} (h : opField w = 0xC) : decode w = .ok (.rnd (xField w) (kkField w)) := by
  simp [decode, h]

theorem decode_opF {w : Word} (h : opField w = 0xF) : decode w = decodeSub (xField w) (kkField w) := by
  simp [decode, h]

/-! ## Decode of encode (30_encoding.md R54) -/

/-- The `8xyN` group on a word written in its format. -/
theorem decode_wordXYN_8 (x y : RegIx) (n : BitVec 4) : decode (wordXYN 0x8 x y n) = decodeAlu x y n := by
  simp [decode_op8]

/-- The `Fx..` group on a word written in its format. -/
theorem decode_wordXKK_F (x : RegIx) (sub : Byte) : decode (wordXKK 0xF x sub) = decodeSub x sub := by
  simp [decode_opF]

theorem decode_encode (i : Instr) : decode (encode i) = .ok i := by
  cases i with
  | ldb x kk => simp [encode, decode_op6]
  | addb x kk => simp [encode, decode_op7]
  | mov x y => exact decode_wordXYN_8 x y 0x0
  | or x y => exact decode_wordXYN_8 x y 0x1
  | and x y => exact decode_wordXYN_8 x y 0x2
  | xor x y => exact decode_wordXYN_8 x y 0x3
  | add x y => exact decode_wordXYN_8 x y 0x4
  | sub x y => exact decode_wordXYN_8 x y 0x5
  | subn x y => exact decode_wordXYN_8 x y 0x7
  | shr x y => exact decode_wordXYN_8 x y 0x6
  | shl x y => exact decode_wordXYN_8 x y 0xE
  | rnd x kk => simp [encode, decode_opC]
  | ldi nnn => simp [encode, decode_opA]
  | addi x => exact decode_wordXKK_F x 0x1E
  | seb x kk => simp [encode, decode_op3]
  | sneb x kk => simp [encode, decode_op4]
  | ser x y => simp [encode, decode_op5]
  | sner x y => simp [encode, decode_op9]
  | jmpv0 nnn => simp [encode, decode_opB]
  | stm x => exact decode_wordXKK_F x 0x55
  | ldm x => exact decode_wordXKK_F x 0x65
  | call nnn => simp [encode, decode_op2]
  | ret => rfl

/-! ## Encode of decode -/

theorem encode_of_decodeAlu {x y : RegIx} {n : BitVec 4} {i : Instr} (h : decodeAlu x y n = .ok i) :
    encode i = wordXYN 0x8 x y n := by
  unfold decodeAlu at h
  split at h
  all_goals
    cases h
  all_goals
    rfl

theorem encode_of_decodeSub {x : RegIx} {sub : Byte} {i : Instr} (h : decodeSub x sub = .ok i) :
    encode i = wordXKK 0xF x sub := by
  unfold decodeSub at h
  split at h
  all_goals
    cases h
  all_goals
    rfl

/-- A conditional leaf of the tree that answered an instruction took its condition. -/
theorem leaf_eq_ok {c : Prop} [Decidable c] {i j : Instr}
    (h : (if c then .ok j else .error .unknownInstruction : Except DecodeFault Instr) = .ok i) : c ∧ j = i := by
  split at h
  · next hc => exact ⟨hc, Except.ok.inj h⟩
  · cases h

/-- By the leaves of the tree: each leaf writes the fields that `encode` puts back. -/
theorem encode_of_decode {w : Word} {i : Instr} (h : decode w = .ok i) : encode i = w := by
  have xkk {o : BitVec 4} (ho : opField w = o) : wordXKK o (xField w) (kkField w) = w := ho ▸ wordXKK_fields w
  have nnn {o : BitVec 4} (ho : opField w = o) : wordNNN o (nnnField w) = w := ho ▸ wordNNN_fields w
  have xyn {o n : BitVec 4} (ho : opField w = o) (hn : nField w = n) :
      wordXYN o (xField w) (yField w) n = w := ho ▸ hn ▸ wordXYN_fields w
  unfold decode at h
  split at h
  · obtain ⟨rfl, rfl⟩ := leaf_eq_ok h
    rfl
  · next ho => exact Except.ok.inj h ▸ nnn ho
  · next ho => exact Except.ok.inj h ▸ xkk ho
  · next ho => exact Except.ok.inj h ▸ xkk ho
  · next ho =>
    obtain ⟨hn, rfl⟩ := leaf_eq_ok h
    exact xyn ho hn
  · next ho => exact Except.ok.inj h ▸ xkk ho
  · next ho => exact Except.ok.inj h ▸ xkk ho
  · next ho => exact (encode_of_decodeAlu h).trans (xyn ho rfl)
  · next ho =>
    obtain ⟨hn, rfl⟩ := leaf_eq_ok h
    exact xyn ho hn
  · next ho => exact Except.ok.inj h ▸ nnn ho
  · next ho => exact Except.ok.inj h ▸ nnn ho
  · next ho => exact Except.ok.inj h ▸ xkk ho
  · next ho => exact (encode_of_decodeSub h).trans (xkk ho)
  · cases h

/-- Settles O5: each format's fields give back what `encode` wrote, and each leaf of the tree reads a whole word. -/
theorem decodeAndEncodeAreInverse : Obligations.DecodeAndEncodeAreInverse :=
  ⟨decode_encode, fun _ _ h => encode_of_decode h⟩

/-- Settles O11. -/
theorem specWordsDecode : Obligations.SpecWordsDecode := by
  unfold Obligations.SpecWordsDecode
  decide

/-! ## The minor opcode of `8xyN` (41_register_alu.md R68) -/

theorem decodeAlu_of_aluSelect {n : BitVec 4} {f : AluFn} (x y : RegIx) (h : aluSelect n = some f) :
    ∃ i, decodeAlu x y n = .ok i ∧ ∀ s, exec i s = aluOp f x y s := by
  unfold aluSelect at h
  split at h
  all_goals
    cases h
  all_goals
    exact ⟨_, rfl, fun _ => rfl⟩

theorem aluSelect_none_iff (n : BitVec 4) :
    aluSelect n = none ↔ n ∈ [0x8#4, 0x9#4, 0xA#4, 0xB#4, 0xC#4, 0xD#4, 0xF#4] := by
  decide +revert

theorem decodeAlu_unknown_iff (x y : RegIx) (n : BitVec 4) :
    decodeAlu x y n = .error .unknownInstruction ↔ aluSelect n = none := by
  cases hf : aluSelect n with
  | some f =>
    obtain ⟨i, hi, -⟩ := decodeAlu_of_aluSelect x y hf
    simp [hi]
  | none =>
    rw [aluSelect_none_iff] at hf
    simp only [List.mem_cons, List.not_mem_nil, or_false] at hf
    obtain rfl | rfl | rfl | rfl | rfl | rfl | rfl := hf
    all_goals simp [decodeAlu]

/-- Settles O36: the tree sends a word with major opcode 8 to its minor opcode, and each minor opcode that
selects a function names the instruction that runs it. -/
theorem minorOpcodeSelectsTheAluFunction : Obligations.MinorOpcodeSelectsTheAluFunction := by
  intro x y n
  rw [decode_wordXYN_8]
  exact ⟨fun _ hf => decodeAlu_of_aluSelect x y hf, (decodeAlu_unknown_iff x y n).2⟩

/-! ## The unassigned words (30_encoding.md R58) -/

theorem decodeSub_unknown_iff (x : RegIx) (sub : Byte) :
    decodeSub x sub = .error .unknownInstruction ↔ sub ∉ [0x1E#8, 0x55#8, 0x65#8] := by
  unfold decodeSub
  split
  · simp
  · simp
  · simp
  · next h1 h2 h3 => exact iff_of_true rfl (by simpa using ⟨h1, h2, h3⟩)

/-- The major opcodes that no leaf of the tree names. -/
theorem op_without_leaf (o : BitVec 4) (h : o ∉ [0x0#4, 0x2#4, 0x3#4, 0x4#4, 0x5#4, 0x6#4, 0x7#4, 0x8#4, 0x9#4,
    0xA#4, 0xB#4, 0xC#4, 0xF#4]) : o = 0x1 ∨ o = 0xD ∨ o = 0xE := by
  decide +revert

/-- The unassigned words by major opcode. -/
theorem decode_unknown_iff_digits (w : Word) :
    decode w = .error .unknownInstruction ↔
      (opField w = 0x0 ∧ w ≠ 0x00EE) ∨ opField w = 0x1 ∨ (opField w = 0x5 ∧ nField w ≠ 0x0) ∨
      (opField w = 0x8 ∧ aluSelect (nField w) = none) ∨ (opField w = 0x9 ∧ nField w ≠ 0x0) ∨
      opField w = 0xD ∨ opField w = 0xE ∨ (opField w = 0xF ∧ kkField w ∉ [0x1E, 0x55, 0x65]) := by
  unfold decode
  split
  case h_14 =>
    obtain ho | ho | ho := op_without_leaf (opField w) (by simp_all)
    all_goals simp [ho]
  all_goals
    next ho => simp [ho, decodeAlu_unknown_iff, decodeSub_unknown_iff]

/-- A range of words that share their major opcode. -/
theorem opField_eq_iff_range (w : Word) (o : BitVec 4) :
    opField w = o ↔ o.toNat * 4096 ≤ w.toNat ∧ w.toNat ≤ o.toNat * 4096 + 4095 := by
  rw [← BitVec.toNat_inj, opField_toNat]
  omega

/-- Major opcode 0 but for the word of RET. -/
theorem op0_not_ret_iff_range (w : Word) :
    opField w = 0x0 ∧ w ≠ 0x00EE ↔ w.toNat ≤ 0x00ED ∨ (0x00EF ≤ w.toNat ∧ w.toNat ≤ 0x0FFF) := by
  rw [opField_eq_iff_range, ne_eq, ← BitVec.toNat_inj]
  simp only [BitVec.ofNat_eq_ofNat, BitVec.toNat_ofNat]
  omega

/-- Settles O10: the unassigned words by major opcode, read as ranges; a dispatch of one is declined. -/
theorem unassignedWordsAreUnknown : Obligations.UnassignedWordsAreUnknown := by
  refine fun w => ⟨?_, fun hd r s hrun => ⟨_, dispatch_of_unknown w r s hrun _ hd, report_endsUnchanged _ s⟩⟩
  rw [decode_unknown_iff_digits, op0_not_ret_iff_range, opField_eq_iff_range w 0x1, opField_eq_iff_range w 0xD,
    opField_eq_iff_range w 0xE, aluSelect_none_iff, or_assoc]
  rfl

end Sys2Proof
end

section
/-! PROOFS. Templates (30_encoding.md R52, R53) and the tables built from them (R56; 60_exceptions.md R107). -/

namespace Sys2Proof

/-! ## A template's mask and match, position by position -/

theorem and_maskDigit_iff (c : TemplateChar) (e : BitVec 4) :
    e &&& c.maskDigit = c.matchDigit ↔ c.takesDigit e = true := by
  cases c with
  | lit d => exact ((and_fifteen e).congr_left.trans eq_comm).trans beq_iff_eq.symm
  | _ => simp [TemplateChar.maskDigit, TemplateChar.matchDigit, TemplateChar.takesDigit]

theorem maskDigit_matchDigit (c : TemplateChar) :
    (∀ d, c = .lit d → c.maskDigit = 0xF ∧ c.matchDigit = d) ∧
      ((∀ d, c ≠ .lit d) → c.maskDigit = 0x0 ∧ c.matchDigit = 0x0) := by
  cases c with
  | lit d =>
    exact ⟨fun d' hd => ⟨rfl, TemplateChar.lit.inj hd⟩, fun h => absurd rfl (h d)⟩
  | _ => exact ⟨fun _ h => (nomatch h), fun _ => ⟨rfl, rfl⟩⟩

theorem acceptsDigits_iff (t : Template) (w : Word) :
    t.acceptsDigits w = true ↔ t.c0.takesDigit (opField w) = true ∧ t.c1.takesDigit (xField w) = true ∧
      t.c2.takesDigit (yField w) = true ∧ t.c3.takesDigit (nField w) = true := by
  simp [Template.acceptsDigits, and_assoc]

theorem and_mask_iff_acceptsDigits (t : Template) (w : Word) :
    w &&& t.mask = t.pattern ↔ t.acceptsDigits w = true := by
  simp only [Template.mask, Template.pattern, and_eq_wordOfDigits, and_maskDigit_iff, acceptsDigits_iff]

theorem accepts_iff_acceptsDigits (t : Template) (w : Word) : t.accepts w = true ↔ t.acceptsDigits w = true := by
  rw [← and_mask_iff_acceptsDigits, Template.accepts, beq_iff_eq]

/-- Settles O8: the four digits of the mask and the match are those of the four characters, and masking a word masks
each digit. -/
theorem maskAndMatchIsTheStringMatcher : Obligations.MaskAndMatchIsTheStringMatcher := by
  refine fun t w => ⟨fun c m p h => ?_, and_mask_iff_acceptsDigits t w⟩
  simp only [Template.mask, Template.pattern, opField_wordOfDigits, xField_wordOfDigits, yField_wordOfDigits,
    nField_wordOfDigits, List.mem_cons, List.not_mem_nil, or_false, Prod.mk.injEq] at h
  obtain ⟨rfl, rfl, rfl⟩ | ⟨rfl, rfl, rfl⟩ | ⟨rfl, rfl, rfl⟩ | ⟨rfl, rfl, rfl⟩ := h
  all_goals exact maskDigit_matchDigit _

/-! ## Collisions -/

theorem charsMeet_iff (a b : TemplateChar) :
    charsMeet a b = true ↔ ∃ e, a.takesDigit e = true ∧ b.takesDigit e = true := by
  cases a with
  | lit d => cases b <;> simp [charsMeet, TemplateChar.takesDigit, eq_comm (b := d)]
  | _ => cases b <;> simp [charsMeet, TemplateChar.takesDigit]

/-- The digits on which the characters of two templates meet are the digits of a word that both accept. -/
theorem templatesCollide_iff (a b : Template) :
    templatesCollide a b = true ↔ ∃ w, a.accepts w = true ∧ b.accepts w = true := by
  simp only [templatesCollide, Bool.and_eq_true, charsMeet_iff, accepts_iff_acceptsDigits, acceptsDigits_iff]
  constructor
  · rintro ⟨⟨⟨⟨e0, a0, b0⟩, ⟨e1, a1, b1⟩⟩, ⟨e2, a2, b2⟩⟩, ⟨e3, a3, b3⟩⟩
    refine ⟨wordOfDigits e0 e1 e2 e3, ?_⟩
    simp [*]
  · rintro ⟨w, ⟨a0, a1, a2, a3⟩, ⟨b0, b1, b2, b3⟩⟩
    exact ⟨⟨⟨⟨_, a0, b0⟩, ⟨_, a1, b1⟩⟩, ⟨_, a2, b2⟩⟩, ⟨_, a3, b3⟩⟩

theorem templatesCollide_eq_false_iff (a b : Template) :
    templatesCollide a b = false ↔ ∀ w, a.accepts w = true → b.accepts w = false := by
  rw [← Bool.not_eq_true, templatesCollide_iff]
  simp

/-- A table is free of collisions iff no word is accepted at two places. -/
theorem collisionFree_iff_places (ts : List Template) :
    collisionFree ts = true ↔ ∀ (i j : Nat) (a b : Template) (w : Word), i < j → ts[i]? = some a →
      ts[j]? = some b → a.accepts w = true → b.accepts w = false := by
  rw [collisionFree_iff, List.pairwise_iff_getElem]
  simp only [templatesCollide_eq_false_iff, List.getElem?_eq_some_iff]
  constructor
  · rintro h i j a b w hij ⟨hi, rfl⟩ ⟨hj, rfl⟩ ha
    exact h i j hi hj hij w ha
  · intro h i j hi hj hij w ha
    exact h i j _ _ w hij ⟨hi, rfl⟩ ⟨hj, rfl⟩ ha

/-! ## Shapes -/

/-- What a template's shape sees of a character: a `k`, an `n`, or neither. -/
def TemplateChar.shape : TemplateChar → TemplateChar
  | .k => .k
  | .n => .n
  | _ => .x

theorem shape_eq_k (c : TemplateChar) : c.shape = .k ↔ c = .k := by cases c <;> simp [TemplateChar.shape]

theorem shape_eq_n (c : TemplateChar) : c.shape = .n ↔ c = .n := by cases c <;> simp [TemplateChar.shape]

theorem shape_mem (c : TemplateChar) : c.shape ∈ [TemplateChar.x, .k, .n] := by
  cases c <;> simp [TemplateChar.shape]

/-- The check of the runs goes by shape: it takes the same branch on the shapes as on the characters. -/
theorem templateRunsOk_map_shape (l : List TemplateChar) : templateRunsOk (l.map .shape) = templateRunsOk l := by
  induction l using templateRunsOk.induct with
  | case1 => rfl
  | case2 t => rfl
  | case3 t hend ih =>
    have hend' : ∀ u, t.map TemplateChar.shape ≠ .k :: u := by
      simpa [List.map_eq_cons_iff, shape_eq_k] using hend
    simpa [templateRunsOk, TemplateChar.shape, hend, hend'] using ih
  | case4 t hrun hend =>
    have hend' : ∀ u, t.map TemplateChar.shape ≠ .k :: u := by
      simpa [List.map_eq_cons_iff, shape_eq_k] using hend
    simp [templateRunsOk, TemplateChar.shape, hend']
  | case5 t => rfl
  | case6 t hend ih =>
    have hend' : ∀ u, t.map TemplateChar.shape ≠ .n :: u := by
      simpa [List.map_eq_cons_iff, shape_eq_n] using hend
    simpa [templateRunsOk, TemplateChar.shape, hend, hend'] using ih
  | case7 t hrun hend =>
    have hend' : ∀ u, t.map TemplateChar.shape ≠ .n :: .n :: u := by
      simpa [List.map_eq_cons_iff, shape_eq_n] using hend
    simp [templateRunsOk, TemplateChar.shape, hend']
  | case8 t ih => exact ih
  | case9 t ih => exact ih
  | case10 d t ih => exact ih

/-- The places at which four characters may have their `k` run and their `n` run (30_encoding.md R52). -/
abbrev RunPlacesOk (l : List TemplateChar) : Prop :=
  l.map (fun c => decide (c = .k)) ∈ [[false, false, false, false], [true, true, false, false],
    [false, true, true, false], [false, false, true, true]] ∧
  l.map (fun c => decide (c = .n)) ∈ [[false, false, false, false], [true, true, true, false],
    [false, true, true, true]]

/-- The 81 templates over the three shapes. -/
theorem templateRunsOk_iff_of_shapes : ∀ a ∈ [TemplateChar.x, .k, .n], ∀ b ∈ [TemplateChar.x, .k, .n],
    ∀ c ∈ [TemplateChar.x, .k, .n], ∀ d ∈ [TemplateChar.x, .k, .n],
    (templateRunsOk [a, b, c, d] = true ↔ RunPlacesOk [a, b, c, d]) := by
  decide

theorem wellFormed_iff_runPlacesOk (t : Template) : t.wellFormed = true ↔ RunPlacesOk t.chars := by
  have hshapes := templateRunsOk_iff_of_shapes _ (shape_mem t.c0) _ (shape_mem t.c1) _ (shape_mem t.c2) _
    (shape_mem t.c3)
  have hruns : templateRunsOk [t.c0.shape, t.c1.shape, t.c2.shape, t.c3.shape] = t.wellFormed :=
    templateRunsOk_map_shape t.chars
  simpa only [hruns, RunPlacesOk, Template.chars, List.map_cons, List.map_nil, shape_eq_k, shape_eq_n] using hshapes

/-! ## Building a table -/

theorem buildTable_badTemplate {ts : List Template} (h : ∃ t ∈ ts, t.wellFormed = false) :
    buildTable ts = .error .badTemplate := by
  have hall : ¬ ts.all Template.wellFormed = true := by simpa using h
  rw [buildTable, if_neg hall]

theorem buildTable_collision {ts : List Template} (h : ∀ t ∈ ts, t.wellFormed = true)
    (hc : ¬ collisionFree ts = true) : buildTable ts = .error .templateCollision := by
  rw [buildTable, if_pos (List.all_eq_true.2 h), if_neg hc]

theorem buildTable_ok {ts : List Template} (h : ∀ t ∈ ts, t.wellFormed = true) (hc : collisionFree ts = true) :
    buildTable ts = .ok (ts.map (fun t => (t.mask, t.pattern))) := by
  rw [buildTable, if_pos (List.all_eq_true.2 h), if_pos hc]

/-- Settles O9: characters meet on a common digit, a shape is checked on its places, and the three answers of
`buildTable` are told apart by these two checks. -/
theorem collisionMeansACommonWord : Obligations.CollisionMeansACommonWord := by
  refine ⟨templatesCollide_iff, wellFormed_iff_runPlacesOk, fun ts => ⟨buildTable_badTemplate, fun hwf =>
    ⟨?_, fun hfree => buildTable_ok hwf ((collisionFree_iff_places ts).2 hfree)⟩⟩⟩
  rintro ⟨i, j, a, b, w, hij, hi, hj, ha, hb⟩
  refine buildTable_collision hwf (fun hfree => ?_)
  have hb' := (collisionFree_iff_places ts).1 hfree i j a b w hij hi hj ha
  rw [hb] at hb'
  cases hb'

/-! ## The instruction table (30_encoding.md R55, R56) -/

/-- The printed mask and match value of a row are those its template compiles to. -/
theorem template_compiles : ∀ r ∈ instructionTable, r.template.mask = r.mask ∧ r.template.pattern = r.pattern := by
  decide

theorem instructionTable_wellFormed :
    ∀ t ∈ instructionTable.map TableRow.template, t.wellFormed = true := by
  decide

theorem instructionTable_collisionFree : collisionFree (instructionTable.map TableRow.template) = true := by
  decide

/-- A row's printed values accept the words its template accepts. -/
theorem row_accepts_iff {r : TableRow} (hr : r ∈ instructionTable) (w : Word) :
    w &&& r.mask = r.pattern ↔ r.template.accepts w = true := by
  obtain ⟨hmask, hpattern⟩ := template_compiles r hr
  rw [← hmask, ← hpattern, Template.accepts, beq_iff_eq]

theorem templatesCollide_comm (a b : Template) : templatesCollide a b = templatesCollide b a := by
  rw [Bool.eq_iff_iff, templatesCollide_iff, templatesCollide_iff]
  exact exists_congr fun _ => and_comm

/-- The templates of two rows do not collide. -/
def RowsApart (r u : TableRow) : Prop := templatesCollide r.template u.template = false

/-- Two rows of the table whose templates collide are the same row. -/
theorem row_eq_of_collide {r u : TableRow} (hr : r ∈ instructionTable) (hu : u ∈ instructionTable)
    (h : templatesCollide r.template u.template = true) : r = u := by
  by_contra hne
  have hpair : instructionTable.Pairwise RowsApart :=
    List.pairwise_map (f := TableRow.template).1 ((collisionFree_iff _).1 instructionTable_collisionFree)
  have hsymm : Std.Symm RowsApart := ⟨fun a b hab => (templatesCollide_comm b.template a.template).trans hab⟩
  have hapart : templatesCollide r.template u.template = false := hpair.forall hr hu hne
  simp [h] at hapart

/-- Settles O7: a word that two rows accept makes their templates collide, and no two templates of the table do. -/
theorem noWordMatchesTwoRows : Obligations.NoWordMatchesTwoRows := by
  refine ⟨fun w r u hr hu hrw huw => ?_, ?_⟩
  · have hcommon : ∃ w, r.template.accepts w = true ∧ u.template.accepts w = true :=
      ⟨w, (row_accepts_iff hr w).1 hrw, (row_accepts_iff hu w).1 huw⟩
    exact row_eq_of_collide hr hu ((templatesCollide_iff _ _).2 hcommon)
  · rw [buildTable_ok instructionTable_wellFormed instructionTable_collisionFree, List.map_map]
    refine congrArg Except.ok (List.map_congr_left fun r hr => ?_)
    obtain ⟨hmask, hpattern⟩ := template_compiles r hr
    exact Prod.ext hmask hpattern

end Sys2Proof
end

section
/-! PROOFS. Operands in assembler lines (30_encoding.md R63, R64). -/

namespace Sys2Proof.Machine

/-! ## The line that writes an instruction -/

/-- The builder of a mnemonic reads back the operands of its instruction. -/
theorem build_asmOperands (i : Instr) : i.mnemonic.build ((asmOperands i).map operandValue) = some i := by
  cases i <;> simp [Instr.mnemonic, asmOperands, operandValue, Mnemonic.build]

theorem fits_reg (x : RegIx) : AsmOperand.fits .reg (.reg x.toNat) = true := decide_eq_true x.isLt

theorem fits_byte (kk : Byte) : AsmOperand.fits .byte (.num kk.toNat) = true := decide_eq_true kk.isLt

theorem fits_addr (nnn : Imm12) : AsmOperand.fits .addr (.num nnn.toNat) = true := decide_eq_true nnn.isLt

theorem asmLine_wellFormed (i : Instr) : (asmLine i).wellFormed = true := by
  cases i <;> simp [asmLine, AsmLine.wellFormed, Instr.mnemonic, Mnemonic.operandKinds, asmOperands, operandsFit,
    fits_reg, fits_byte, fits_addr]

theorem assemble_asmLine (i : Instr) : assemble (asmLine i) = some (encode i) := by
  rw [assemble, if_pos (asmLine_wellFormed i)]
  exact congrArg (Option.map encode) (build_asmOperands i)

/-! ## The instruction of a line -/

theorem fits_reg_inv {o : AsmOperand} (h : AsmOperand.fits .reg o = true) : ∃ x : RegIx, o = .reg x.toNat := by
  cases o with
  | reg n => exact ⟨BitVec.ofNatLT n (of_decide_eq_true h), rfl⟩
  | num n => cases h

theorem fits_byte_inv {o : AsmOperand} (h : AsmOperand.fits .byte o = true) : ∃ kk : Byte, o = .num kk.toNat := by
  cases o with
  | reg n => cases h
  | num n => exact ⟨BitVec.ofNatLT n (of_decide_eq_true h), rfl⟩

theorem fits_addr_inv {o : AsmOperand} (h : AsmOperand.fits .addr o = true) : ∃ nnn : Imm12, o = .num nnn.toNat := by
  cases o with
  | reg n => cases h
  | num n => exact ⟨BitVec.ofNatLT n (of_decide_eq_true h), rfl⟩

theorem operandsFit_nil_inv {os : List AsmOperand} (h : operandsFit [] os = true) : os = [] := by
  cases os with
  | nil => rfl
  | cons o os => cases h

theorem operandsFit_cons_inv {k : OperandKind} {ks : List OperandKind} {os : List AsmOperand}
    (h : operandsFit (k :: ks) os = true) :
    ∃ o os', os = o :: os' ∧ AsmOperand.fits k o = true ∧ operandsFit ks os' = true := by
  cases os with
  | nil => cases h
  | cons o os' =>
    obtain ⟨ho, hos⟩ := Bool.and_eq_true_iff.1 h
    exact ⟨o, os', rfl, ho, hos⟩

/-- Operands that fit the kinds reg and byte are those of the instruction `c x kk`, for some `x` and `kk`. -/
theorem exists_asmLine_regByte {m : Mnemonic} {os : List AsmOperand} (c : RegIx → Byte → Instr)
    (hc : ∀ x kk, asmLine (c x kk) = ⟨m, [.reg x.toNat, .num kk.toNat]⟩)
    (h : operandsFit [.reg, .byte] os = true) : ∃ i, asmLine i = ⟨m, os⟩ := by
  obtain ⟨o, os1, rfl, ho, h1⟩ := operandsFit_cons_inv h
  obtain ⟨p, os2, rfl, hp, h2⟩ := operandsFit_cons_inv h1
  obtain rfl := operandsFit_nil_inv h2
  obtain ⟨x, rfl⟩ := fits_reg_inv ho
  obtain ⟨kk, rfl⟩ := fits_byte_inv hp
  exact ⟨c x kk, hc x kk⟩

theorem exists_asmLine_regReg {m : Mnemonic} {os : List AsmOperand} (c : RegIx → RegIx → Instr)
    (hc : ∀ x y, asmLine (c x y) = ⟨m, [.reg x.toNat, .reg y.toNat]⟩)
    (h : operandsFit [.reg, .reg] os = true) : ∃ i, asmLine i = ⟨m, os⟩ := by
  obtain ⟨o, os1, rfl, ho, h1⟩ := operandsFit_cons_inv h
  obtain ⟨p, os2, rfl, hp, h2⟩ := operandsFit_cons_inv h1
  obtain rfl := operandsFit_nil_inv h2
  obtain ⟨x, rfl⟩ := fits_reg_inv ho
  obtain ⟨y, rfl⟩ := fits_reg_inv hp
  exact ⟨c x y, hc x y⟩

theorem exists_asmLine_addr {m : Mnemonic} {os : List AsmOperand} (c : Imm12 → Instr)
    (hc : ∀ nnn, asmLine (c nnn) = ⟨m, [.num nnn.toNat]⟩)
    (h : operandsFit [.addr] os = true) : ∃ i, asmLine i = ⟨m, os⟩ := by
  obtain ⟨o, os1, rfl, ho, h1⟩ := operandsFit_cons_inv h
  obtain rfl := operandsFit_nil_inv h1
  obtain ⟨nnn, rfl⟩ := fits_addr_inv ho
  exact ⟨c nnn, hc nnn⟩

theorem exists_asmLine_reg {m : Mnemonic} {os : List AsmOperand} (c : RegIx → Instr)
    (hc : ∀ x, asmLine (c x) = ⟨m, [.reg x.toNat]⟩)
    (h : operandsFit [.reg] os = true) : ∃ i, asmLine i = ⟨m, os⟩ := by
  obtain ⟨o, os1, rfl, ho, h1⟩ := operandsFit_cons_inv h
  obtain rfl := operandsFit_nil_inv h1
  obtain ⟨x, rfl⟩ := fits_reg_inv ho
  exact ⟨c x, hc x⟩

/-- A line that fits is the line of an instruction: by its mnemonic, the row's operand kinds and constructor. -/
theorem exists_asmLine_of_wellFormed {l : AsmLine} (h : l.wellFormed = true) : ∃ i, asmLine i = l := by
  obtain ⟨m, os⟩ := l
  cases m with
  | LDB => exact exists_asmLine_regByte .ldb (fun _ _ => rfl) h
  | ADDB => exact exists_asmLine_regByte .addb (fun _ _ => rfl) h
  | MOV => exact exists_asmLine_regReg .mov (fun _ _ => rfl) h
  | OR => exact exists_asmLine_regReg .or (fun _ _ => rfl) h
  | AND => exact exists_asmLine_regReg .and (fun _ _ => rfl) h
  | XOR => exact exists_asmLine_regReg .xor (fun _ _ => rfl) h
  | ADD => exact exists_asmLine_regReg .add (fun _ _ => rfl) h
  | SUB => exact exists_asmLine_regReg .sub (fun _ _ => rfl) h
  | SUBN => exact exists_asmLine_regReg .subn (fun _ _ => rfl) h
  | SHR => exact exists_asmLine_regReg .shr (fun _ _ => rfl) h
  | SHL => exact exists_asmLine_regReg .shl (fun _ _ => rfl) h
  | RND => exact exists_asmLine_regByte .rnd (fun _ _ => rfl) h
  | LDI => exact exists_asmLine_addr .ldi (fun _ => rfl) h
  | ADDI => exact exists_asmLine_reg .addi (fun _ => rfl) h
  | SEB => exact exists_asmLine_regByte .seb (fun _ _ => rfl) h
  | SNEB => exact exists_asmLine_regByte .sneb (fun _ _ => rfl) h
  | SER => exact exists_asmLine_regReg .ser (fun _ _ => rfl) h
  | SNER => exact exists_asmLine_regReg .sner (fun _ _ => rfl) h
  | JMPV0 => exact exists_asmLine_addr .jmpv0 (fun _ => rfl) h
  | STM => exact exists_asmLine_reg .stm (fun _ => rfl) h
  | LDM => exact exists_asmLine_reg .ldm (fun _ => rfl) h
  | CALL => exact exists_asmLine_addr .call (fun _ => rfl) h
  | RET =>
    obtain rfl := operandsFit_nil_inv h
    exact ⟨.ret, rfl⟩

/-- Settles O58: the builder reads back the operands of an instruction's line, and a line that fits is the line of
an instruction. -/
theorem assemblerWritesTheEncoding : Obligations.AssemblerWritesTheEncoding := by
  refine ⟨assemble_asmLine, fun l h => ?_, fun l h => ?_⟩
  · rw [assemble, if_neg (by simp [h])]
  · obtain ⟨i, rfl⟩ := exists_asmLine_of_wellFormed h
    exact ⟨i, assemble_asmLine i, rfl⟩

end Sys2Proof.Machine
end

section
/-! PROOFS. The lookup in the instruction table is the decision tree (30_encoding.md R53 to R57). -/

namespace Sys2Proof

open Sys2Proof.Machine

/-! ## Captures by template shape (30_encoding.md R54) -/

theorem yField_nField_toNat (w : Word) : (yField w).toNat * 16 + (nField w).toNat = (kkField w).toNat := by
  have hy := (nField w).isLt
  rw [kkField_digits, BitVec.toNat_append, ← Nat.shiftLeft_add_eq_or_of_lt hy, Nat.shiftLeft_eq]

theorem xField_yField_nField_toNat (w : Word) :
    (xField w).toNat * 256 + (yField w).toNat * 16 + (nField w).toNat = (nnnField w).toNat := by
  have hy := (yField w).isLt
  have hn := (nField w).isLt
  rw [nnnField_digits, BitVec.toNat_append, BitVec.toNat_append, ← Nat.shiftLeft_add_eq_or_of_lt hy,
    ← Nat.shiftLeft_add_eq_or_of_lt hn, Nat.shiftLeft_eq, Nat.shiftLeft_eq]
  omega

theorem captures_xkk (o : BitVec 4) (w : Word) :
    Template.captures ⟨.lit o, .x, .k, .k⟩ w = [(xField w).toNat, (kkField w).toNat] := by
  simp [Template.captures, captureGroups, yField_nField_toNat]

theorem captures_xyn (o n : BitVec 4) (w : Word) :
    Template.captures ⟨.lit o, .x, .y, .lit n⟩ w = [(xField w).toNat, (yField w).toNat] := by
  simp [Template.captures, captureGroups]

theorem captures_nnn (o : BitVec 4) (w : Word) :
    Template.captures ⟨.lit o, .n, .n, .n⟩ w = [(nnnField w).toNat] := by
  simp [Template.captures, captureGroups, xField_yField_nField_toNat]

theorem captures_xss (o a b : BitVec 4) (w : Word) :
    Template.captures ⟨.lit o, .x, .lit a, .lit b⟩ w = [(xField w).toNat] := by
  simp [Template.captures, captureGroups]

/-! ## Each row against the tree -/

/-- On the words its template accepts, the row builds from its captures the instruction that the tree answers. -/
def RowDecodes (r : TableRow) : Prop :=
  ∀ w, r.template.acceptsDigits w = true →
    ∃ i, decode w = .ok i ∧ r.mnemonic.build (r.template.captures w) = some i

/-- The tree's answers on major opcode `o` are the instructions `c x kk`. -/
theorem rowDecodes_xkk {o : BitVec 4} {mask pattern : Word} {m : Mnemonic} (c : RegIx → Byte → Instr)
    (hd : ∀ {w}, opField w = o → decode w = .ok (c (xField w) (kkField w)))
    (hb : ∀ x kk, m.build [x.toNat, kk.toNat] = some (c x kk)) :
    RowDecodes ⟨⟨.lit o, .x, .k, .k⟩, m, mask, pattern⟩ := by
  intro w h
  obtain ⟨ho, -⟩ := (acceptsDigits_iff _ w).1 h
  exact ⟨_, hd (beq_iff_eq.1 ho).symm, (congrArg m.build (captures_xkk o w)).trans (hb _ _)⟩

theorem rowDecodes_xyn {o n : BitVec 4} {mask pattern : Word} {m : Mnemonic} (c : RegIx → RegIx → Instr)
    (hd : ∀ {w}, opField w = o → nField w = n → decode w = .ok (c (xField w) (yField w)))
    (hb : ∀ x y, m.build [x.toNat, y.toNat] = some (c x y)) :
    RowDecodes ⟨⟨.lit o, .x, .y, .lit n⟩, m, mask, pattern⟩ := by
  intro w h
  obtain ⟨ho, -, -, hn⟩ := (acceptsDigits_iff _ w).1 h
  exact ⟨_, hd (beq_iff_eq.1 ho).symm (beq_iff_eq.1 hn).symm, (congrArg m.build (captures_xyn o n w)).trans (hb _ _)⟩

theorem rowDecodes_nnn {o : BitVec 4} {mask pattern : Word} {m : Mnemonic} (c : Imm12 → Instr)
    (hd : ∀ {w}, opField w = o → decode w = .ok (c (nnnField w)))
    (hb : ∀ nnn, m.build [nnn.toNat] = some (c nnn)) :
    RowDecodes ⟨⟨.lit o, .n, .n, .n⟩, m, mask, pattern⟩ := by
  intro w h
  obtain ⟨ho, -⟩ := (acceptsDigits_iff _ w).1 h
  exact ⟨_, hd (beq_iff_eq.1 ho).symm, (congrArg m.build (captures_nnn o w)).trans (hb _)⟩

/-- A row of the `8xyN` group, by its minor opcode. -/
theorem rowDecodes_alu {n : BitVec 4} {mask pattern : Word} {m : Mnemonic} (c : RegIx → RegIx → Instr)
    (hd : ∀ x y, decodeAlu x y n = .ok (c x y)) (hb : ∀ x y, m.build [x.toNat, y.toNat] = some (c x y)) :
    RowDecodes ⟨⟨.lit 0x8, .x, .y, .lit n⟩, m, mask, pattern⟩ :=
  rowDecodes_xyn c (fun ho hn => by rw [decode_op8 ho, hn, hd]) hb

/-- A row of the `Fx..` group, by its minor opcode. -/
theorem rowDecodes_xss {a b : BitVec 4} {mask pattern : Word} {m : Mnemonic} (c : RegIx → Instr)
    (hd : ∀ x, decodeSub x (a ++ b : BitVec (4 + 4)) = .ok (c x)) (hb : ∀ x, m.build [x.toNat] = some (c x)) :
    RowDecodes ⟨⟨.lit 0xF, .x, .lit a, .lit b⟩, m, mask, pattern⟩ := by
  intro w h
  obtain ⟨ho, -, ha, hb'⟩ := (acceptsDigits_iff _ w).1 h
  have hkk := (kkField_eq_iff w a b).2 ⟨(beq_iff_eq.1 ha).symm, (beq_iff_eq.1 hb').symm⟩
  exact ⟨c (xField w), by rw [decode_opF (beq_iff_eq.1 ho).symm, hkk, hd],
    (congrArg m.build (captures_xss 0xF a b w)).trans (hb _)⟩

theorem rowDecodes_ret {mask pattern : Word} :
    RowDecodes ⟨⟨.lit 0x0, .lit 0x0, .lit 0xE, .lit 0xE⟩, .RET, mask, pattern⟩ := by
  intro w h
  obtain ⟨ho, hx, hy, hn⟩ := (acceptsDigits_iff _ w).1 h
  have hw : w = 0x00EE#16 :=
    word_eq_of_digits (beq_iff_eq.1 ho).symm (beq_iff_eq.1 hx).symm (beq_iff_eq.1 hy).symm (beq_iff_eq.1 hn).symm
  exact ⟨.ret, by rw [hw]; rfl, rfl⟩

theorem rowDecodes_of_mem_registerAlu : ∀ r ∈ tableRegisterAlu, RowDecodes r := by
  simp only [tableRegisterAlu, List.forall_mem_cons]
  exact ⟨rowDecodes_xkk .ldb decode_op6 (fun x kk => build_asmOperands (.ldb x kk)),
    rowDecodes_xkk .addb decode_op7 (fun x kk => build_asmOperands (.addb x kk)),
    rowDecodes_alu .mov (fun _ _ => rfl) (fun x y => build_asmOperands (.mov x y)),
    rowDecodes_alu .or (fun _ _ => rfl) (fun x y => build_asmOperands (.or x y)),
    rowDecodes_alu .and (fun _ _ => rfl) (fun x y => build_asmOperands (.and x y)),
    rowDecodes_alu .xor (fun _ _ => rfl) (fun x y => build_asmOperands (.xor x y)),
    rowDecodes_alu .add (fun _ _ => rfl) (fun x y => build_asmOperands (.add x y)),
    rowDecodes_alu .sub (fun _ _ => rfl) (fun x y => build_asmOperands (.sub x y)),
    rowDecodes_alu .subn (fun _ _ => rfl) (fun x y => build_asmOperands (.subn x y)),
    rowDecodes_alu .shr (fun _ _ => rfl) (fun x y => build_asmOperands (.shr x y)),
    rowDecodes_alu .shl (fun _ _ => rfl) (fun x y => build_asmOperands (.shl x y)),
    rowDecodes_xkk .rnd decode_opC (fun x kk => build_asmOperands (.rnd x kk)), List.forall_mem_nil _⟩

theorem rowDecodes_of_mem_rest : ∀ r ∈ tableRest, RowDecodes r := by
  simp only [tableRest, List.forall_mem_cons]
  exact ⟨rowDecodes_nnn .ldi decode_opA (fun nnn => build_asmOperands (.ldi nnn)),
    rowDecodes_xss .addi (fun _ => rfl) (fun x => build_asmOperands (.addi x)),
    rowDecodes_xkk .seb decode_op3 (fun x kk => build_asmOperands (.seb x kk)),
    rowDecodes_xkk .sneb decode_op4 (fun x kk => build_asmOperands (.sneb x kk)),
    rowDecodes_xyn .ser (fun ho hn => by rw [decode_op5 ho, if_pos hn]) (fun x y => build_asmOperands (.ser x y)),
    rowDecodes_xyn .sner (fun ho hn => by rw [decode_op9 ho, if_pos hn]) (fun x y => build_asmOperands (.sner x y)),
    rowDecodes_nnn .jmpv0 decode_opB (fun nnn => build_asmOperands (.jmpv0 nnn)),
    rowDecodes_xss .stm (fun _ => rfl) (fun x => build_asmOperands (.stm x)),
    rowDecodes_xss .ldm (fun _ => rfl) (fun x => build_asmOperands (.ldm x)),
    rowDecodes_nnn .call decode_op2 (fun nnn => build_asmOperands (.call nnn)), rowDecodes_ret, List.forall_mem_nil _⟩

theorem rowDecodes_of_mem {r : TableRow} (hr : r ∈ instructionTable) : RowDecodes r :=
  (List.mem_append.1 hr).elim (rowDecodes_of_mem_registerAlu r) (rowDecodes_of_mem_rest r)

/-! ## Each instruction has a row -/

theorem rowMatch (i : Instr) : Laws.RowMatch.Statement i := by
  cases i with
  | ldb x kk => exact Laws.RowMatch.ldb x kk
  | addb x kk => exact Laws.RowMatch.addb x kk
  | mov x y => exact Laws.RowMatch.mov x y
  | or x y => exact Laws.RowMatch.or x y
  | and x y => exact Laws.RowMatch.and x y
  | xor x y => exact Laws.RowMatch.xor x y
  | add x y => exact Laws.RowMatch.add x y
  | sub x y => exact Laws.RowMatch.sub x y
  | subn x y => exact Laws.RowMatch.subn x y
  | shr x y => exact Laws.RowMatch.shr x y
  | shl x y => exact Laws.RowMatch.shl x y
  | rnd x kk => exact Laws.RowMatch.rnd x kk
  | ldi nnn => exact Laws.RowMatch.ldi nnn
  | addi x => exact Laws.RowMatch.addi x
  | seb x kk => exact Laws.RowMatch.seb x kk
  | sneb x kk => exact Laws.RowMatch.sneb x kk
  | ser x y => exact Laws.RowMatch.ser x y
  | sner x y => exact Laws.RowMatch.sner x y
  | jmpv0 nnn => exact Laws.RowMatch.jmpv0 nnn
  | stm x => exact Laws.RowMatch.stm x
  | ldm x => exact Laws.RowMatch.ldm x
  | call nnn => exact Laws.RowMatch.call nnn
  | ret => exact Laws.RowMatch.ret

/-- A word that decodes is accepted by a row of the table. -/
theorem exists_row_of_decode {w : Word} {i : Instr} (h : decode w = .ok i) :
    ∃ r ∈ instructionTable, r.accepts w = true := by
  obtain ⟨r, hr, hw⟩ := rowMatch i
  rw [encode_of_decode h] at hw
  exact ⟨r, List.mem_of_find?_eq_some hr, beq_iff_eq.2 hw⟩

/-- The tree has one name for a word without a meaning (30_encoding.md R58). -/
theorem decode_error {w : Word} {e : DecodeFault} (h : decode w = .error e) : e = .unknownInstruction := by
  unfold decode decodeAlu decodeSub at h
  repeat' split at h
  all_goals
    cases h
  all_goals
    rfl

/-- A word the table accepts is built to what the tree answers. -/
theorem decodeByTable_of_row {w : Word} {r : TableRow} (hf : instructionTable.find? (fun r => r.accepts w) = some r) :
    decodeByTable w = decode w := by
  have hr : r ∈ instructionTable := List.mem_of_find?_eq_some hf
  have haccepts : r.accepts w = true := List.find?_some (p := fun r : TableRow => r.accepts w) hf
  have hw : w &&& r.mask = r.pattern := beq_iff_eq.1 haccepts
  have hdigits := (accepts_iff_acceptsDigits r.template w).1 ((row_accepts_iff hr w).1 hw)
  obtain ⟨i, hd, hb⟩ := rowDecodes_of_mem hr w hdigits
  simp only [decodeByTable, hf, hb, hd]

theorem decodeByTable_of_noRow {w : Word} (hf : instructionTable.find? (fun r => r.accepts w) = none) :
    decodeByTable w = .error .unknownInstruction := by
  simp only [decodeByTable, hf]

/-- Settles O6: a row that accepts the word builds the tree's instruction, and a word that no row accepts is not
the encoding of an instruction. -/
theorem decisionTreeIsTableLookup : Obligations.DecisionTreeIsTableLookup := by
  intro w
  cases hf : instructionTable.find? (fun r => r.accepts w) with
  | some r => exact (decodeByTable_of_row hf).symm
  | none =>
    rw [decodeByTable_of_noRow hf]
    cases hd : decode w with
    | error e => rw [decode_error hd]
    | ok i =>
      obtain ⟨r, hr, hw⟩ := exists_row_of_decode hd
      exact absurd hw (List.find?_eq_none.1 hf r hr)

end Sys2Proof
end

section
/-! PROOFS. What a dispatch and a step do with the decoded word (30_encoding.md R60; 70_reset_and_hazards.md R122). -/

namespace Sys2Proof.Machine

theorem recordFault_haltsWith (f : HaltingFault) (w : Word) (s : State) :
    HaltsWith f.status f.status.code w s ((s.recordFault f w).report f.status false) :=
  ⟨rfl, rfl, rfl, rfl, rfl, rfl, fun _ => rfl, rfl, rfl, ⟨rfl, fun _ => rfl⟩, fun _ => rfl⟩

/-- An effect ends OK or in a raise with the word of its instruction. -/
theorem exec_ok_or_halts {i : Instr} {s t : State} (h : exec i s = .next t) :
    t.status = .ok ∨ (t.status.haltsBlock = true ∧ HaltsWith t.status t.status.code (encode i) s t) := by
  cases exec_next_effect h with
  | @fault _ f hf => exact .inr ⟨haltingFault_status_haltsBlock f, recordFault_haltsWith f (encode i) s⟩
  | _ => exact .inl rfl

/-- Settles O40, by what a dispatch can be: declined while halted, declined as unknown, or one effect, whose raise
records the dispatched word because that is the encoding of its instruction. -/
theorem dispatchRefusesOrRunsOneEffect : Obligations.DispatchRefusesOrRunsOneEffect := by
  refine fun w r s => ⟨fun hhalted => ?_, fun hrun hd => ?_, fun i hrun hd => ?_⟩
  · exact ⟨_, dispatch_of_halted w r s hhalted, report_endsUnchanged _ s⟩
  · exact ⟨_, dispatch_of_unknown w r s hrun _ hd, report_endsUnchanged _ s⟩
  · obtain ⟨t, ht⟩ := exec_answers_next i (s.setRand r)
    have hend := exec_ok_or_halts ht
    rw [encode_of_decode hd] at hend
    exact ⟨t, (dispatch_of_ok w r s hrun i hd).trans ht, ht, hend⟩

/-- A step whose dispatch is declined stays at its word. -/
theorem step_of_declined {s : State} {w : Word} {st : Status} (hst : st ≠ .ok) (hs : s.status = .ok)
    (hw : s.fetch = some w) (hd : dispatch w s.drawn s.afterDraw = .next (s.afterDraw.report st false)) :
    ∃ t, step s = .next t ∧ EndsUnchanged st s t := by
  refine ⟨_, step_of_dispatch s _ w hs hw hd, ?_⟩
  rw [State.afterDispatch, State.report_status, if_neg hst]
  exact report_endsUnchanged st s

/-- Settles O53: the step is the dispatch of the word at PC with the drawn byte, and an advance of PC iff it ended
OK. -/
theorem stepRunsTheDecodedInstruction : Obligations.StepRunsTheDecodedInstruction := by
  refine fun s w hs hw => ⟨drawn_of_cons s, drawn_of_nil s, fun i hrun hd => ?_, fun hrun hd => ?_, fun hhalted => ?_⟩
  · obtain ⟨t, ht⟩ := exec_answers_next i { s with rand := s.drawn, rands := s.rands.tail, draws := s.draws + 1 }
    have hdispatch : dispatch w s.drawn s.afterDraw = .next t :=
      (dispatch_of_ok w s.drawn s.afterDraw hrun i hd).trans ht
    rw [step_of_dispatch s t w hs hw hdispatch, ht]
    rfl
  · exact step_of_declined (by decide) hs hw (dispatch_of_unknown w s.drawn s.afterDraw hrun _ hd)
  · exact step_of_declined (by decide) hs hw (dispatch_of_halted w s.drawn s.afterDraw hhalted)

end Sys2Proof.Machine
end

section
/-! PROOFS. An instruction whose word has format XKK or XYN decodes from exactly the words of its mask and match
(30_encoding.md R50, R53, R55). -/

namespace Sys2Proof.Machine

theorem decode_eq_ok_iff (w : Word) (i : Instr) : decode w = .ok i ↔ encode i = w :=
  ⟨encode_of_decode, fun h => h ▸ decode_encode i⟩

theorem wordXKK_eq_iff (o : BitVec 4) (x : RegIx) (kk : Byte) (w : Word) :
    wordXKK o x kk = w ↔ opField w = o ∧ xField w = x ∧ kkField w = kk := by
  constructor
  · rintro rfl
    simp
  · rintro ⟨rfl, rfl, rfl⟩
    exact wordXKK_fields w

theorem wordXYN_eq_iff (o : BitVec 4) (x y : RegIx) (n : BitVec 4) (w : Word) :
    wordXYN o x y n = w ↔ (opField w = o ∧ nField w = n) ∧ xField w = x ∧ yField w = y := by
  constructor
  · rintro rfl
    simp
  · rintro ⟨⟨rfl, rfl⟩, rfl, rfl⟩
    exact wordXYN_fields w

theorem encodesXKK_of_encode (o : BitVec 4) {c : RegIx → Byte → Instr}
    (h : ∀ x kk, encode (c x kk) = wordXKK o x kk) : EncodesXKK 0xF000#16 (wordOfDigits o 0x0 0x0 0x0) c := by
  intro w x kk
  rw [decode_eq_ok_iff, h, wordXKK_eq_iff, and_F000]

theorem encodesXY_of_encode (o n : BitVec 4) {c : RegIx → RegIx → Instr}
    (h : ∀ x y, encode (c x y) = wordXYN o x y n) : EncodesXY 0xF00F#16 (wordOfDigits o 0x0 0x0 n) c := by
  intro w x y
  rw [decode_eq_ok_iff, h, wordXYN_eq_iff, and_F00F]

end Sys2Proof.Machine
end

section
/-! PROOFS. Register loads and ALU instructions (41_register_alu.md R69 to R81): each writes `V[x]`, and those
with a flag write VF after it. -/

namespace Sys2Proof.Machine

/-! ## The two effects -/

/-- The effect of an instruction that writes `b` to `V[x]` and sets no flag (R70 to R75, R81). -/
def WritesV (x : RegIx) (b : Byte) (s t : State) : Prop :=
  EndsOk t false ∧ t.readV x = b ∧ SameVBut (· = x) s t ∧ SameOutsideV s t

/-- The effect of an instruction that writes `b` to `V[x]` and then `fl` to VF (R69). -/
def WritesVThenFlag (x : RegIx) (b fl : Byte) (s t : State) : Prop :=
  EndsOk t false ∧ t.readV 0xF = fl ∧ (x ≠ 0xF → t.readV x = b) ∧
    SameVBut (fun r => r = x ∨ r = 0xF) s t ∧ SameOutsideV s t

/-- A write of a V register is what the port does there. -/
theorem writeV_writesV (s : State) (x : RegIx) (b : Byte) : WritesV x b s ((s.writeV x b).report .ok false) :=
  ⟨⟨rfl, rfl⟩, portWrite_writes (.v x b) s⟩

/-- The second write is the one that stands when `x` is VF. -/
theorem writeV_writeVf_writesVThenFlag (s : State) (x : RegIx) (b fl : Byte) :
    WritesVThenFlag x b fl s (((s.writeV x b).writeV vf fl).report .ok false) := by
  have hread (r : RegIx) : (((s.writeV x b).writeV vf fl).report .ok false).readV r =
      if r = 0xF then fl else if r = x then b else s.readV r := by
    rw [State.report_readV, State.readV_writeV, State.readV_writeV, vf]
  obtain ⟨-, -, -, houtside⟩ := writeV_writesV s x b
  refine ⟨⟨rfl, rfl⟩, (hread _).trans (if_pos rfl), fun hx => ?_, fun r hr => ?_, houtside⟩
  · rw [hread, if_neg hx, if_pos rfl]
  · obtain ⟨hrx, hrf⟩ := not_or.1 hr
    rw [hread, if_neg hrf, if_neg hrx]

/-! ## Flags -/

theorem flagOf_decide (c : Prop) [Decidable c] : flagOf (decide c) = if c then 1 else 0 := by
  simp [flagOf]

theorem carryFlag_eq (a b : Byte) : carryFlag a b = if a.toNat + b.toNat > 255 then 1 else 0 := flagOf_decide _

theorem noBorrowFlag_eq (a b : Byte) : noBorrowFlag a b = if a.toNat > b.toNat then 1 else 0 := flagOf_decide _

theorem byte_eq_zero_or_one {b : Byte} (h : b.toNat < 2) : b = 0 ∨ b = 1 := by
  bv_omega

/-- Whatever function yields it, a flag is 0 or 1 (R69). -/
theorem aluFlag_eq_zero_or_one {f : AluFn} {a b fl : Byte} (h : aluFlag f a b = some fl) : fl = 0 ∨ fl = 1 := by
  cases f with
  | pass => cases h
  | or => cases h
  | and => cases h
  | xor => cases h
  | add => exact Option.some.inj h ▸ flagOf_eq _
  | sub => exact Option.some.inj h ▸ flagOf_eq _
  | subn => exact Option.some.inj h ▸ flagOf_eq _
  | shr =>
    obtain rfl := Option.some.inj h
    exact byte_eq_zero_or_one (by rw [shiftOutRight_toNat]; omega)
  | shl =>
    obtain rfl := Option.some.inj h
    exact byte_eq_zero_or_one (by rw [shiftOutLeft_toNat]; omega)

/-! ## Instructions without a flag -/

/-- Settles O12. -/
theorem ldbLoadsTheByte : Obligations.LdbLoadsTheByte :=
  ⟨encodesXKK_of_encode 0x6 (fun _ _ => rfl), fun x kk s => ⟨_, exec_ldb x kk s, writeV_writesV s x kk⟩⟩

/-- Settles O13: the byte written is the sum modulo 256. -/
theorem addbAddsWithoutAFlag : Obligations.AddbAddsWithoutAFlag := by
  refine ⟨encodesXKK_of_encode 0x7 (fun _ _ => rfl), fun x kk s => ?_⟩
  obtain ⟨hend, hx, hframe⟩ := writeV_writesV s x (addByte (s.readV x) kk)
  exact ⟨_, exec_addb x kk s, hend, by rw [hx, addByte_toNat], hframe⟩

/-- Settles O14. -/
theorem movCopiesTheRegister : Obligations.MovCopiesTheRegister :=
  ⟨encodesXY_of_encode 0x8 0x0 (fun _ _ => rfl), fun x y s => ⟨_, exec_mov x y s, writeV_writesV s x _⟩⟩

/-- Settles O15. -/
theorem orIsBitwiseOr : Obligations.OrIsBitwiseOr :=
  ⟨encodesXY_of_encode 0x8 0x1 (fun _ _ => rfl), fun x y s => ⟨_, exec_or x y s, writeV_writesV s x _⟩⟩

/-- Settles O16. -/
theorem andIsBitwiseAnd : Obligations.AndIsBitwiseAnd :=
  ⟨encodesXY_of_encode 0x8 0x2 (fun _ _ => rfl), fun x y s => ⟨_, exec_and x y s, writeV_writesV s x _⟩⟩

/-- Settles O17. -/
theorem xorIsBitwiseExclusiveOr : Obligations.XorIsBitwiseExclusiveOr :=
  ⟨encodesXY_of_encode 0x8 0x3 (fun _ _ => rfl), fun x y s => ⟨_, exec_xor x y s, writeV_writesV s x _⟩⟩

/-- Settles O23: the byte at the RAND input is the one that `setRand` put there. -/
theorem rndMasksTheRandomByte : Obligations.RndMasksTheRandomByte :=
  ⟨encodesXKK_of_encode 0xC (fun _ _ => rfl),
    fun x kk rand s => ⟨_, exec_rnd x kk (s.setRand rand), writeV_writesV (s.setRand rand) x (rand &&& kk)⟩⟩

/-! ## Instructions with a flag -/

/-- Settles O18, by the values of the sum and of its carry. -/
theorem addSetsTheCarry : Obligations.AddSetsTheCarry := by
  refine ⟨encodesXY_of_encode 0x8 0x4 (fun _ _ => rfl), fun x y s => ?_⟩
  obtain ⟨hend, hflag, hx, hframe⟩ := writeV_writeVf_writesVThenFlag s x _ _
  exact ⟨_, exec_add x y s, hend, hflag.trans (carryFlag_eq _ _), fun hne => by rw [hx hne, addByte_toNat], hframe⟩

/-- Settles O19, by the values of the difference and of its flag. -/
theorem subSetsNoBorrow : Obligations.SubSetsNoBorrow := by
  refine ⟨encodesXY_of_encode 0x8 0x5 (fun _ _ => rfl), fun x y s => ?_⟩
  obtain ⟨hend, hflag, hx, hframe⟩ := writeV_writeVf_writesVThenFlag s x _ _
  exact ⟨_, exec_sub x y s, hend, hflag.trans (noBorrowFlag_eq _ _),
    fun hne => by rw [hx hne, subByte_toNat], hframe⟩

/-- Settles O20, as SUB with the operands swapped. -/
theorem subnSetsNoBorrow : Obligations.SubnSetsNoBorrow := by
  refine ⟨encodesXY_of_encode 0x8 0x7 (fun _ _ => rfl), fun x y s => ?_⟩
  obtain ⟨hend, hflag, hx, hframe⟩ := writeV_writeVf_writesVThenFlag s x _ _
  exact ⟨_, exec_subn x y s, hend, hflag.trans (noBorrowFlag_eq _ _),
    fun hne => by rw [hx hne, subByte_toNat], hframe⟩

/-- Settles O21, by the values of the half and of the bit shifted out. -/
theorem shrShiftsBitZeroOut : Obligations.ShrShiftsBitZeroOut := by
  refine ⟨encodesXY_of_encode 0x8 0x6 (fun _ _ => rfl), fun x y s => ?_⟩
  obtain ⟨hend, hflag, hx, hframe⟩ := writeV_writeVf_writesVThenFlag s x _ _
  refine ⟨_, exec_shr x y s, hend, by rw [hflag, shiftOutRight_toNat], fun hne => ?_, hframe⟩
  rw [hx hne, BitVec.toNat_ushiftRight, Nat.shiftRight_eq_div_pow, pow_one]

/-- Settles O22, by the values of the double and of the bit shifted out. -/
theorem shlShiftsBitSevenOut : Obligations.ShlShiftsBitSevenOut := by
  refine ⟨encodesXY_of_encode 0x8 0xE (fun _ _ => rfl), fun x y s => ?_⟩
  obtain ⟨hend, hflag, hx, hframe⟩ := writeV_writeVf_writesVThenFlag s x _ _
  refine ⟨_, exec_shl x y s, hend, by rw [hflag, shiftOutLeft_toNat], fun hne => ?_, hframe⟩
  rw [hx hne, BitVec.toNat_ofNat, Nat.mul_comm]

/-! ## The flag-setting instructions as a whole -/

/-- Settles O37: each of the five runs the datapath with a function that yields a flag, which writes the flag last. -/
theorem flagIsWrittenLast : Obligations.FlagIsWrittenLast := by
  intro x y s i f h
  obtain ⟨hexec, fl, hfl⟩ : exec i s = aluOp f x y s ∧ ∃ fl, aluFlag f (s.readV x) (s.readV y) = some fl := by
    simp only [List.mem_cons, List.not_mem_nil, or_false, Prod.mk.injEq] at h
    obtain ⟨rfl, rfl⟩ | ⟨rfl, rfl⟩ | ⟨rfl, rfl⟩ | ⟨rfl, rfl⟩ | ⟨rfl, rfl⟩ := h
    all_goals exact ⟨rfl, _, rfl⟩
  obtain ⟨-, hwrites⟩ := writeV_writeVf_writesVThenFlag s x (aluResult f (s.readV x) (s.readV y)) fl
  exact ⟨_, fl, hexec.trans (aluOp_flag f x y s fl hfl), hfl, aluFlag_eq_zero_or_one hfl, hwrites⟩

/-- Settles O38: halving and doubling undo each other on the values whose bit shifted out is 0. -/
theorem shiftsUndoEachOther : Obligations.ShiftsUndoEachOther := by
  obtain ⟨-, hshr⟩ := shrShiftsBitZeroOut
  obtain ⟨-, hshl⟩ := shlShiftsBitSevenOut
  refine fun x y y' s hx => ⟨fun heven => ?_, fun hlow => ?_⟩
  · obtain ⟨t, ht, -, htf, htx, -⟩ := hshr x y s
    obtain ⟨u, hu, -, huf, hux, -⟩ := hshl x y' t
    specialize htx hx
    specialize hux hx
    refine ⟨t, u, ht, hu, ?_, ?_, ?_⟩
    all_goals bv_omega
  · obtain ⟨t, ht, -, htf, htx, -⟩ := hshl x y s
    obtain ⟨u, hu, -, huf, hux, -⟩ := hshr x y' t
    specialize htx hx
    specialize hux hx
    refine ⟨t, u, ht, hu, ?_, ?_, ?_⟩
    all_goals bv_omega

end Sys2Proof.Machine
end

section
/-! PROOFS. An instruction whose word has format NNN or XSS decodes from exactly the words of its mask and match
(30_encoding.md R50, R53, R55). -/

namespace Sys2Proof.Machine

theorem wordNNN_eq_iff (o : BitVec 4) (nnn : Imm12) (w : Word) :
    wordNNN o nnn = w ↔ opField w = o ∧ nnnField w = nnn := by
  constructor
  · rintro rfl
    simp
  · rintro ⟨rfl, rfl⟩
    exact wordNNN_fields w

theorem encodesNNN_of_encode (o : BitVec 4) {c : Imm12 → Instr} (h : ∀ nnn, encode (c nnn) = wordNNN o nnn) :
    EncodesNNN 0xF000#16 (wordOfDigits o 0x0 0x0 0x0) c := by
  intro w nnn
  rw [decode_eq_ok_iff, h, wordNNN_eq_iff, and_F000]

/-- The minor opcode of an XSS word is its last two digits, which the mask 0xF0FF tests. -/
theorem encodesX_of_encode (o a b : BitVec 4) {c : RegIx → Instr}
    (h : ∀ x, encode (c x) = wordXKK o x (a ++ b : BitVec (4 + 4))) :
    EncodesX 0xF0FF#16 (wordOfDigits o 0x0 a b) c := by
  intro w x
  rw [decode_eq_ok_iff, h, wordXKK_eq_iff, kkField_eq_iff, and_F0FF, and_assoc, and_comm (a := xField w = x)]

end Sys2Proof.Machine
end

section
/-! PROOFS. Index-register instructions (42_index.md R82, R83): each writes I and nothing else. -/

namespace Sys2Proof.Machine

/-- The effect of an instruction that writes `w` to I. -/
def WritesI (w : Word) (s t : State) : Prop :=
  EndsOk t false ∧ t.iReg = w ∧ SameV s t ∧ t.pc = s.pc ∧ SameStack s t ∧ SameMem s t ∧ SameRecord s t ∧
    SameInputs s t

/-- A write of I is what the port does there. -/
theorem writeI_writesI (s : State) (w : Word) : WritesI w s ((s.writeI w).report .ok false) :=
  ⟨⟨rfl, rfl⟩, portWrite_writes (.i w) s⟩

/-- Settles O24: the word written is `nnn` with its top 4 bits 0. -/
theorem ldiLoadsTheIndex : Obligations.LdiLoadsTheIndex := by
  refine ⟨encodesNNN_of_encode 0xA (fun _ => rfl), fun nnn s => ?_⟩
  obtain ⟨hend, hi, hframe⟩ := writeI_writesI s (zextImm nnn)
  exact ⟨_, exec_ldi nnn s, hend, by rw [hi, zextImm_toNat], hframe⟩

/-- Settles O25: the word written is the sum modulo 65536, and the frame holds VF with the other V registers. -/
theorem addiAddsToTheIndex : Obligations.AddiAddsToTheIndex := by
  refine ⟨encodesX_of_encode 0xF 0x1 0xE (fun _ => rfl), fun x s => ?_⟩
  obtain ⟨hend, hi, hframe⟩ := writeI_writesI s (s.iReg + zextByte (s.readV x))
  exact ⟨_, exec_addi x s, hend, by rw [hi, BitVec.toNat_add, zextByte_toNat], hframe⟩

end Sys2Proof.Machine
end

section
/-! PROOFS. Skip and jump instructions (43_skip_jump.md R84 to R90): each writes PC and the outputs and nothing else. -/

namespace Sys2Proof.Machine

/-! ## Skips (43_skip_jump.md R84) -/

/-- The frame is that of a port write of PC: the new value on a taken skip, the old one otherwise. -/
theorem skipIf_skipsIf {c : Bool} {p : Prop} (hc : c = true ↔ p) (s : State) :
    ∃ t, skipIf c s = .next t ∧ SkipsIf p s t := by
  cases c with
  | true =>
    obtain ⟨-, hframe⟩ := portWrite_writes (.pc (s.pc + 1)) s
    exact ⟨_, skipIf_true s, hframe, rfl, fun _ => ⟨BitVec.toNat_add s.pc 1, rfl⟩, fun hp => absurd (hc.1 rfl) hp⟩
  | false =>
    obtain ⟨-, hframe⟩ := portWrite_writes (.pc s.pc) s
    exact ⟨_, skipIf_false s, hframe, rfl, fun hp => (nomatch hc.2 hp), fun _ => ⟨rfl, rfl⟩⟩

/-- Settles O26. -/
theorem sebSkipsOnEqualByte : Obligations.SebSkipsOnEqualByte :=
  ⟨encodesXKK_of_encode 0x3 (fun _ _ => rfl), fun _ _ s => skipIf_skipsIf beq_iff_eq s⟩

/-- Settles O27. -/
theorem snebSkipsOnDifferentByte : Obligations.SnebSkipsOnDifferentByte :=
  ⟨encodesXKK_of_encode 0x4 (fun _ _ => rfl), fun _ _ s => skipIf_skipsIf bne_iff_ne s⟩

/-- Settles O28. -/
theorem serSkipsOnEqualRegisters : Obligations.SerSkipsOnEqualRegisters :=
  ⟨encodesXY_of_encode 0x5 0x0 (fun _ _ => rfl), fun _ _ s => skipIf_skipsIf beq_iff_eq s⟩

/-- Settles O29. -/
theorem snerSkipsOnDifferentRegisters : Obligations.SnerSkipsOnDifferentRegisters :=
  ⟨encodesXY_of_encode 0x9 0x0 (fun _ _ => rfl), fun _ _ s => skipIf_skipsIf bne_iff_ne s⟩

/-! ## The jump (43_skip_jump.md R85, R90) -/

/-- The absolute-target convention: the environment's advance of PC undoes the minus one. -/
theorem jumpTo_pc_add_one (s : State) (t : Word) : (s.jumpTo t).pc + 1 = t := by
  rw [State.jumpTo_pc, BitVec.sub_add_cancel]

/-- The target `V0 + nnn` fits in 16 bits. -/
theorem zextByte_add_zextImm_toNat (b : Byte) (nnn : Imm12) :
    (zextByte b + zextImm nnn).toNat = b.toNat + nnn.toNat := by
  rw [BitVec.toNat_add, zextByte_toNat, zextImm_toNat]
  omega

/-- Settles O30: the word written is the target minus one, and the target does not wrap. -/
theorem jmpv0WritesTargetMinusOne : Obligations.Jmpv0WritesTargetMinusOne := by
  refine ⟨encodesNNN_of_encode 0xB (fun _ => rfl), fun nnn s => ?_⟩
  let target : Word := zextByte (s.readV 0x0) + zextImm nnn
  obtain ⟨-, hframe⟩ := portWrite_writes (.pc (target - 1)) s
  refine ⟨_, exec_jmpv0 nnn s, ⟨rfl, rfl⟩, ?_, hframe⟩
  calc ((s.jumpTo target).pc.toNat + 1) % 65536
    _ = ((s.jumpTo target).pc + 1).toNat := (BitVec.toNat_add _ 1).symm
    _ = target.toNat := by rw [jumpTo_pc_add_one]
    _ = (s.readV 0x0).toNat + nnn.toNat := zextByte_add_zextImm_toNat _ nnn

/-! ## Where PC stands after a step (70_reset_and_hazards.md R121, R124) -/

theorem afterDispatch_of_ok {t : State} (h : t.status = .ok) : t.afterDispatch = t.advancePc := if_pos h

theorem afterDispatch_of_not_ok {t : State} (h : t.status ≠ .ok) : t.afterDispatch = t := if_neg h

/-- Under the sequencer a jump lands on its target. -/
theorem afterDispatch_jumpTo_pc (s : State) (t : Word) : ((s.jumpTo t).report .ok false).afterDispatch.pc = t := by
  rw [afterDispatch_of_ok rfl, State.advancePc_pc, State.report_pc, jumpTo_pc_add_one]

theorem afterDispatch_status (t : State) : t.afterDispatch.status = t.status := by
  unfold State.afterDispatch
  split <;> rfl

/-- A running block steps by the effect of the instruction at PC, with the drawn byte at the RAND input. -/
theorem step_of_exec {s t : State} {w : Word} {i : Instr} (hs : s.status = .ok) (hrun : s.halted = false)
    (hw : s.fetch = some w) (hd : decode w = .ok i) (h : exec i (s.afterDraw.setRand s.drawn) = .next t) :
    step s = .next t.afterDispatch :=
  step_of_dispatch s t w hs hw ((dispatch_of_ok w s.drawn s.afterDraw hrun i hd).trans h)

/-- An instruction that transfers no control moves PC by a taken skip alone. -/
theorem exec_pc_of_no_transfer {i : Instr} {s t : State} (hi : i.mnemonic ∉ [Mnemonic.JMPV0, .CALL, .RET])
    (h : exec i s = .next t) : t.pc = if t.skip = true then s.pc + 1 else s.pc := by
  cases exec_next_effect h with
  | jump nnn w => exact absurd (by simp [Instr.mnemonic]) hi
  | call nnn hroom => exact absurd (by simp [Instr.mnemonic]) hi
  | ret hentry => exact absurd (by simp [Instr.mnemonic]) hi
  | _ => rfl

/-- A halting fault leaves PC at the faulting instruction (60_exceptions.md R108). -/
theorem exec_pc_of_not_ok {i : Instr} {s t : State} (h : exec i s = .next t) (hst : t.status ≠ .ok) :
    t.pc = s.pc := by
  obtain hok | ⟨-, -, -, -, -, -, -, -, -, hpc, -⟩ := exec_ok_or_halts h
  · exact absurd hok hst
  · exact hpc

/-- PC after the dispatch of an instruction that transfers no control and the environment's advance. -/
theorem afterDispatch_pc_of_exec {i : Instr} {s t : State} (hi : i.mnemonic ∉ [Mnemonic.JMPV0, .CALL, .RET])
    (h : exec i s = .next t) :
    (t.afterDispatch.status = .ok → t.afterDispatch.pc = s.pc + (if t.afterDispatch.skip = true then 2 else 1)) ∧
    (t.afterDispatch.status ≠ .ok → t.afterDispatch.pc = s.pc) := by
  rw [afterDispatch_status]
  refine ⟨fun hok => ?_, fun hst => ?_⟩
  · rw [afterDispatch_of_ok hok, State.advancePc_pc, State.advancePc_skip, exec_pc_of_no_transfer hi h]
    split
    · exact BitVec.add_assoc s.pc 1 1
    · rfl
  · rw [afterDispatch_of_not_ok hst, exec_pc_of_not_ok h hst]

/-- Settles O56: the environment's advance turns target minus one into the target, and the saved slot into the
one after it. -/
theorem controlTransfersLandOnTheirTargets : Obligations.ControlTransfersLandOnTheirTargets := by
  intro s w i hs hrun hw hd
  let u : State := s.afterDraw.setRand s.drawn
  have hstep {t : State} (h : exec i u = .next t) : step s = .next t.afterDispatch := step_of_exec hs hrun hw hd h
  refine ⟨fun nnn hi => ?_, fun nnn hi hsp hroom => ?_, fun j hi hj => ?_, fun hi => ?_⟩
  · subst hi
    refine ⟨_, hstep (exec_jmpv0 nnn u), ?_⟩
    rw [afterDispatch_jumpTo_pc]
    exact zextByte_add_zextImm_toNat (s.readV 0x0) nnn
  · subst hi
    refine ⟨_, hstep (exec_call nnn u ((push_room s hsp).2 hroom)), ?_⟩
    rw [afterDispatch_jumpTo_pc]
    exact zextImm_toNat nnn
  · subst hi
    have hentry : s.sp.toNat ≤ 15 := by omega
    have hsp : BitVec.ofNat 4 s.sp.toNat = j := by rw [hj, BitVec.ofNat_toNat, BitVec.setWidth_eq]
    refine ⟨_, hstep (exec_ret u hentry), ?_⟩
    rw [afterDispatch_of_ok rfl, State.advancePc_pc, State.report_pc, State.writePc_pc, ← hsp]
    rfl
  · obtain ⟨t, ht⟩ := exec_answers_next i u
    exact ⟨_, hstep ht, afterDispatch_pc_of_exec (s := u) hi ht⟩

end Sys2Proof.Machine
end

section
/-! PROOFS. Block transfers (44_block_memory.md R91 to R93): STM writes memory, LDM writes V registers, and a block
that reaches past memory raises before any write. -/

namespace Sys2Proof.Machine

/-! ## The block at I: bytes 0 to `x`, at `s.blockAddr 0` to `s.blockAddr x` -/

theorem lt_blockCount_iff {k : Nat} {x : RegIx} : k < blockCount x ↔ k ≤ x.toNat := Nat.lt_succ_iff

/-- The check of R91 covers the whole block, for its addresses rise. -/
theorem block_le_memSize {s : State} {x : RegIx} (h : s.iReg.toNat + x.toNat < Config.memSize) :
    s.blockAddr 0 + blockCount x ≤ Config.memSize := Nat.succ_le_of_lt h

theorem wf_storeBlock_block {s : State} {x : RegIx} (hs : s.MemCanonical)
    (h : s.iReg.toNat + x.toNat < Config.memSize) :
    Memory.wf (Memory.storeBlock s.readV (s.blockAddr 0) (blockCount x) s.mem) = true :=
  Memory.wf_storeBlock s.readV _ _ s.mem (block_le_memSize h) hs

theorem read_storeBlock_block {s : State} {x k : RegIx} (hs : s.MemCanonical)
    (h : s.iReg.toNat + x.toNat < Config.memSize) (hk : k.toNat ≤ x.toNat) :
    Memory.read (Memory.storeBlock s.readV (s.blockAddr 0) (blockCount x) s.mem) (s.blockAddr k.toNat) =
      s.readV k := by
  have hread := Memory.read_storeBlock_inside s.readV (s.blockAddr 0) (blockCount x) s.mem k.toNat
    (lt_blockCount_iff.2 hk) (block_le_memSize h) hs
  rwa [BitVec.ofNat_toNat, BitVec.setWidth_eq] at hread

/-- A block has at most one byte per register. -/
theorem blockCount_le (x : RegIx) : blockCount x ≤ 16 := Nat.succ_le_of_lt x.isLt

theorem readV_loadBlock_block (m : Memory) (s : State) (x k : RegIx) :
    (State.loadBlock m (s.blockAddr 0) (blockCount x) s).readV k =
      if k.toNat ≤ x.toNat then Memory.read m (s.blockAddr k.toNat) else s.readV k := by
  rw [readV_loadBlock m _ _ (blockCount_le x) s k]
  exact if_congr lt_blockCount_iff rfl rfl

/-- A block load reaches no state but V registers. -/
theorem loadBlock_sameOutsideV (m : Memory) (base n : Nat) (s : State) :
    SameOutsideV s ((State.loadBlock m base n s).report .ok false) := by
  rw [loadBlock_frame]
  exact ⟨rfl, rfl, ⟨rfl, fun _ => rfl⟩, fun _ => rfl, ⟨rfl, rfl, rfl, rfl⟩, ⟨rfl, rfl, rfl, rfl⟩⟩

/-! ## The raise (60_exceptions.md R108) -/

theorem raise_haltsWith (f : HaltingFault) (w : Word) (s : State) :
    ∃ t, raise f w s = .next t ∧ HaltsWith f.status f.status.code w s t ∧ SameInputs s t :=
  ⟨_, raise_eq f w s, recordFault_haltsWith f w s, ⟨rfl, rfl, rfl, rfl⟩⟩

/-! ## The obligations -/

/-- Settles O31: a block store puts `V[k]` at byte `k` and reaches no other address; past memory the check raises. -/
theorem stmStoresTheBlockOrFaults : Obligations.StmStoresTheBlockOrFaults := by
  refine ⟨encodesX_of_encode 0xF 0x5 0x5 (fun _ => rfl), fun x s => ⟨fun hs hin => ?_, fun hout => ?_⟩⟩
  · have houtside (a : Nat) (ha : ∀ k, k ≤ x.toNat → a ≠ s.blockAddr k) :=
      Memory.read_storeBlock_outside s.readV (s.blockAddr 0) (blockCount x) s.mem a
        (fun k hk => ha k (lt_blockCount_iff.1 hk))
    exact ⟨_, exec_stm x s hin, ⟨rfl, rfl⟩, fun _ hk => read_storeBlock_block hs hin hk, houtside,
      fun _ => rfl, rfl, rfl, ⟨rfl, fun _ => rfl⟩, ⟨rfl, rfl, rfl, rfl⟩, ⟨rfl, rfl, rfl, rfl⟩⟩
  · rw [exec_stm_bounds x s hout]
    exact raise_haltsWith .memoryBounds _ s

/-- Settles O32: a block load puts byte `k` in `V[k]` and reaches no other register; past memory the check raises. -/
theorem ldmLoadsTheBlockOrFaults : Obligations.LdmLoadsTheBlockOrFaults := by
  refine ⟨encodesX_of_encode 0xF 0x6 0x5 (fun _ => rfl), fun x s => ⟨fun hin => ?_, fun hout => ?_⟩⟩
  · have hread := readV_loadBlock_block s.mem s x
    exact ⟨_, exec_ldm x s hin, ⟨rfl, rfl⟩, fun k hk => (hread k).trans (if_pos hk),
      fun k hk => (hread k).trans (if_neg hk), loadBlock_sameOutsideV _ _ _ s⟩
  · rw [exec_ldm_bounds x s hout]
    exact raise_haltsWith .memoryBounds _ s

/-- Settles O39: each register of the block is loaded from the byte it was stored to, and a load keeps memory. -/
theorem storeThenLoadIsIdempotent : Obligations.StoreThenLoadIsIdempotent := by
  intro x s hs hin
  refine ⟨_, _, exec_stm x s hin, exec_ldm x _ hin, fun k => ?_, loadBlock_iReg _ _ _ _, loadBlock_mem _ _ _ _, ?_⟩
  · rw [State.report_readV, readV_loadBlock_block]
    split
    · next hk => exact read_storeBlock_block hs hin hk
    · rfl
  · rw [State.MemCanonical, State.report_mem, loadBlock_mem]
    exact wf_storeBlock_block hs hin

end Sys2Proof.Machine
end

section
/-! PROOFS. Call and return (45_subroutine.md R94 to R98): CALL pushes PC, RET pops it, and each raises before any
write when SP leaves it no entry. -/

namespace Sys2Proof.Machine

/-! ## SP, the entry it names, and the target -/

theorem sp_succ_toNat (sp : Byte) : (sp + 1).toNat = (sp.toNat + 1) % 256 := BitVec.toNat_add sp 1

theorem sp_pred_toNat (sp : Byte) : (sp - 1).toNat = (sp.toNat + 255) % 256 := by
  rw [BitVec.toNat_sub, add_comm]
  rfl

/-- The entry named by an SP that is an entry's index. -/
theorem eq_entry_iff {sp : Byte} (h : sp.toNat ≤ 15) (j : BitVec 4) :
    j = BitVec.ofNat 4 sp.toNat ↔ j.toNat = sp.toNat := by
  rw [← BitVec.toNat_inj, BitVec.toNat_ofNat, Nat.mod_eq_of_lt (by omega)]

/-- The advance of PC turns target minus one into the target, target 0 included (43_skip_jump.md R85). -/
theorem target_pred_succ_toNat (nnn : Imm12) : ((zextImm nnn - 1).toNat + 1) % 65536 = nnn.toNat := by
  calc ((zextImm nnn - 1).toNat + 1) % 65536
    _ = (zextImm nnn - 1 + 1).toNat := (BitVec.toNat_add _ 1).symm
    _ = nnn.toNat := by rw [BitVec.sub_add_cancel, zextImm_toNat]

/-! ## The two instructions -/

/-- Settles O33: the entry written is the one the new SP names, and PC is the target minus one. -/
theorem callPushesAndJumpsOrFaults : Obligations.CallPushesAndJumpsOrFaults := by
  refine ⟨encodesNNN_of_encode 0x2 (fun _ => rfl), fun nnn s => ?_⟩
  rw [← sp_succ_toNat]
  refine ⟨fun hroom => ?_, fun hfull => ?_⟩
  · have hstack (j : BitVec 4) := (State.readStack_writeStack (s.writeSp (s.sp + 1)) _ j s.pc).trans
      (if_congr (eq_entry_iff hroom j) rfl rfl)
    exact ⟨_, exec_call nnn s hroom, ⟨rfl, rfl⟩, rfl, hstack, target_pred_succ_toNat nnn,
      fun _ => rfl, rfl, fun _ => rfl, ⟨rfl, rfl, rfl, rfl⟩, ⟨rfl, rfl, rfl, rfl⟩⟩
  · rw [exec_call_overflow nnn s hfull]
    exact raise_haltsWith .stackOverflow _ s

/-- Settles O34: PC is the entry SP names, and only SP and PC are written. -/
theorem retPopsOrFaults : Obligations.RetPopsOrFaults := by
  refine ⟨fun w => ?_, fun s => ⟨fun j hj => ?_, fun hempty => ?_⟩⟩
  · have hmask : w &&& 0xFFFF = w := BitVec.and_allOnes
    rw [decode_eq_ok_iff, hmask, eq_comm]
    rfl
  · have hentry : s.sp.toNat ≤ 15 := by omega
    obtain rfl := (eq_entry_iff hentry j).2 hj.symm
    exact ⟨_, exec_ret s hentry, ⟨rfl, rfl⟩, rfl, sp_pred_toNat s.sp, fun _ => rfl,
      fun _ => rfl, rfl, fun _ => rfl, ⟨rfl, rfl, rfl, rfl⟩, ⟨rfl, rfl, rfl, rfl⟩⟩
  · rw [exec_ret_underflow s hempty]
    exact raise_haltsWith .stackUnderflow _ s

/-! ## A call and its return (R98) -/

/-- SP is one above `sp` and names an entry that holds `pc`: what a CALL leaves and a RET undoes. -/
def ReturnsTo (pc : Word) (sp : Byte) (t : State) : Prop :=
  t.sp = sp + 1 ∧ (sp + 1).toNat ≤ 15 ∧ t.readStack (BitVec.ofNat 4 (sp + 1).toNat) = pc

theorem exec_call_returnsTo (nnn : Imm12) {s : State} (hroom : (s.sp + 1).toNat ≤ 15) :
    ∃ t, exec (.call nnn) s = .next t ∧ t.status = .ok ∧ t.halted = s.halted ∧ t.prog = s.prog ∧
      t.pc + 1 = zextImm nnn ∧ ReturnsTo s.pc s.sp t :=
  ⟨_, exec_call nnn s hroom, rfl, rfl, rfl, BitVec.sub_add_cancel _ _, rfl, hroom,
    (State.readStack_writeStack _ _ _ _).trans (if_pos rfl)⟩

theorem exec_ret_of_returnsTo {pc : Word} {sp : Byte} {t : State} (h : ReturnsTo pc sp t) :
    ∃ u, exec .ret t = .next u ∧ u.status = .ok ∧ u.pc = pc ∧ u.sp = sp ∧
      u.readStack (BitVec.ofNat 4 (sp + 1).toNat) = pc := by
  obtain ⟨hsp, hentry, hpc⟩ := h
  rw [← hsp] at hentry hpc ⊢
  have hpred : t.sp - 1 = sp := by rw [hsp, BitVec.add_sub_cancel]
  exact ⟨_, exec_ret t hentry, rfl, hpc, hpred, hpc⟩

/-- The entry above SP, by SP's number: the sentinel 0xFF wraps to entry 0. -/
theorem entry_above (sp : Byte) : BitVec.ofNat 4 (sp + 1).toNat = BitVec.ofNat 4 (sp.toNat + 1) := by
  rw [sp_succ_toNat, ← BitVec.toNat_inj, BitVec.toNat_ofNat, BitVec.toNat_ofNat]
  omega

/-- Settles O35: neither a draw, the RAND input nor the environment's advance of PC reaches the stack, so the RET
finds what the CALL left. -/
theorem callAndReturnBalance : Obligations.CallAndReturnBalance := by
  intro w nnn s hd hrun hlegal hfull
  have hroom : (s.sp + 1).toNat ≤ 15 := (push_room s hlegal).2 hfull
  have hret : decode 0x00EE = .ok .ret := decode_encode .ret
  refine ⟨fun r r' => ?_, fun hs hw htarget => ?_⟩
  · obtain ⟨t, hcall, -, hhalted, -, -, hreturn⟩ := exec_call_returnsTo nnn (s := s.setRand r) hroom
    obtain ⟨u, hu, hok, hpc, hsp, hentry⟩ := exec_ret_of_returnsTo (t := t.setRand r') hreturn
    rw [entry_above] at hentry
    exact ⟨t, u, (dispatch_of_ok w r s hrun _ hd).trans hcall,
      (dispatch_of_ok _ r' t (hhalted.trans hrun) _ hret).trans hu, hok, hpc, hsp, hentry⟩
  · obtain ⟨t, hcall, htok, hhalted, hprog, htpc, hreturn⟩ :=
      exec_call_returnsTo nnn (s := s.afterDraw.setRand s.drawn) hroom
    have hfetch : t.advancePc.fetch = some 0x00EE := by
      rw [State.fetch, State.advancePc_prog, State.advancePc_pc, htpc, hprog, zextImm_toNat]
      exact htarget
    obtain ⟨u, hu, huok, hupc, husp, -⟩ :=
      exec_ret_of_returnsTo (t := t.advancePc.afterDraw.setRand t.advancePc.drawn) hreturn
    have hstep := step_of_exec hs hrun hw hd hcall
    have hstep' := step_of_exec (s := t.advancePc) htok (hhalted.trans hrun) hfetch hret hu
    rw [afterDispatch_of_ok htok] at hstep
    rw [afterDispatch_of_ok huok] at hstep'
    exact ⟨_, _, hstep, hstep', huok, congrArg (· + 1) hupc, husp⟩

end Sys2Proof.Machine
end

section
/-! PROOFS. Faults (60_exceptions.md R108 to R111): a dispatch that does not end OK declines or raises, neither of
which writes the architectural state, and the checks that decline come before the instruction's own. -/

namespace Sys2Proof.Machine

/-! ## The faulting ends of a dispatch -/

/-- An instruction ends OK, or in the one fault its own check raises. -/
theorem exec_ok_or_raises {i : Instr} {s t : State} (h : exec i s = .next t) :
    t.status = .ok ∨ ∃ f, Raises i f ∧ t = (s.recordFault f (encode i)).report f.status false := by
  cases exec_next_effect h with
  | @fault _ f hf => exact .inr ⟨f, hf, rfl⟩
  | _ => exact .inl rfl

theorem decodeStatus_haltsBlock (e : DecodeFault) : (decodeStatus e).haltsBlock = false := by cases e <;> rfl

/-- A dispatch ends OK, is declined with a status that does not halt, or raises with the dispatched word. -/
theorem dispatch_ok_or_declined_or_raised {w : Word} {r : Byte} {s t : State} (h : dispatch w r s = .next t) :
    t.status = .ok ∨ (∃ st : Status, st.haltsBlock = false ∧ t = s.report st false) ∨
      ∃ f : HaltingFault, t = ((s.setRand r).recordFault f w).report f.status false := by
  obtain ⟨-, he⟩ | ⟨-, e, -, he⟩ | ⟨-, i, hd, he⟩ := dispatch_cases w r s
  · exact .inr (.inl ⟨.halted, rfl, Host.Outcome.next.inj (h.symm.trans he)⟩)
  · exact .inr (.inl ⟨_, decodeStatus_haltsBlock e, Host.Outcome.next.inj (h.symm.trans he)⟩)
  · obtain hok | ⟨f, -, ht⟩ := exec_ok_or_raises (he.symm.trans h)
    · exact .inl hok
    · exact .inr (.inr ⟨f, encode_of_decode hd ▸ ht⟩)

/-! ## Entry into a halting fault (R108) -/

theorem haltingFault_status_code_mem (f : HaltingFault) :
    (f.status, f.status.code) ∈ [(Status.stackOverflow, (3 : Byte)), (.stackUnderflow, 4), (.memoryBounds, 5)] := by
  cases f <;> decide

/-- Settles O41: of the ends of a dispatch only the raise reports a halting fault. -/
theorem haltingFaultEntryWritesTheRecord : Obligations.HaltingFaultEntryWritesTheRecord := by
  intro w r s t h hhalts
  obtain hok | ⟨st, hst, rfl⟩ | ⟨f, rfl⟩ := dispatch_ok_or_declined_or_raised h
  · rw [hok] at hhalts
    exact absurd hhalts (by decide)
  · exact absurd hhalts (Bool.eq_false_iff.1 hst)
  · exact ⟨recordFault_haltsWith f w (s.setRand r), haltingFault_status_code_mem f, rfl, rfl, rfl, rfl⟩

/-! ## Precision (R110) -/

/-- The architectural state is kept, and the fault record too unless the reported status halts the block. -/
def FaultIsPrecise (s t : State) : Prop := SameArch s t ∧ (t.status.haltsBlock = false → SameRecord s t)

theorem report_faultIsPrecise (st : Status) (s : State) : FaultIsPrecise s (s.report st false) := by
  obtain ⟨-, -, harch, hrecord⟩ := report_endsUnchanged st s
  exact ⟨harch, fun _ => hrecord⟩

theorem recordFault_faultIsPrecise (f : HaltingFault) (w : Word) (s : State) :
    FaultIsPrecise s ((s.recordFault f w).report f.status false) := by
  obtain ⟨-, -, -, -, -, -, harch⟩ := recordFault_haltsWith f w s
  exact ⟨harch, fun hrun => absurd (haltingFault_status_haltsBlock f) (Bool.eq_false_iff.1 hrun)⟩

theorem dispatch_faultIsPrecise {w : Word} {r : Byte} {s t : State} (h : dispatch w r s = .next t)
    (hst : t.status ≠ .ok) : FaultIsPrecise s t := by
  obtain hok | ⟨st, -, rfl⟩ | ⟨f, rfl⟩ := dispatch_ok_or_declined_or_raised h
  · exact absurd hok hst
  · exact report_faultIsPrecise st s
  · exact recordFault_faultIsPrecise f w (s.setRand r)

theorem dispatchText_faultIsPrecise {text : List Char} {r : Byte} {s t : State}
    (h : dispatchText text r s = .next t) (hst : t.status ≠ .ok) : FaultIsPrecise s t := by
  obtain ⟨e, he⟩ | ⟨w, hw⟩ := dispatchText_cases text r s
  · obtain rfl := Host.Outcome.next.inj (he.symm.trans h)
    exact report_faultIsPrecise (decodeStatus e) s
  · exact dispatch_faultIsPrecise (hw.symm.trans h) hst

/-- Settles O42, by the kind of dispatch. -/
theorem everyFaultIsPrecise : Obligations.EveryFaultIsPrecise := by
  rintro tr s t ⟨r, ⟨w, rfl⟩ | ⟨text, rfl⟩⟩ h hst
  · exact dispatch_faultIsPrecise h hst
  · exact dispatchText_faultIsPrecise h hst

/-! ## The order of the checks (R111) -/

/-- An instruction's own check fails only for CALL, RET, STM and LDM, each with the fault of its own. -/
theorem exec_status {i : Instr} {s t : State} (h : exec i s = .next t) :
    t.status = .ok ∨ (t.status = .stackOverflow ∧ ∃ nnn, i = .call nnn) ∨ (t.status = .stackUnderflow ∧ i = .ret) ∨
      (t.status = .memoryBounds ∧ ∃ x, i = .stm x ∨ i = .ldm x) := by
  obtain hok | ⟨f, hf, rfl⟩ := exec_ok_or_raises h
  · exact .inl hok
  · cases hf with
    | call nnn => exact .inr (.inl ⟨rfl, nnn, rfl⟩)
    | ret => exact .inr (.inr (.inl ⟨rfl, rfl⟩))
    | stm x => exact .inr (.inr (.inr ⟨rfl, x, .inl rfl⟩))
    | ldm x => exact .inr (.inr (.inr ⟨rfl, x, .inr rfl⟩))

/-- Settles O43: a text is parsed before its word is dispatched, and a dispatch reaches the instruction's own check
only on a running block with a word that decodes. -/
theorem checksRunInPriorityOrder : Obligations.ChecksRunInPriorityOrder := by
  refine fun text r s => ⟨fun e he => ?_, fun w hw hhalted => ?_, fun w hw hrun hd => ?_, fun w i hw hrun hd => ?_⟩
  · obtain rfl := parseWord_error he
    exact ⟨_, dispatchText_of_malformed text _ r s he, report_endsUnchanged _ s⟩
  · rw [dispatchText_of_ok text w r s hw]
    exact ⟨_, dispatch_of_halted w r s hhalted, report_endsUnchanged _ s⟩
  · rw [dispatchText_of_ok text w r s hw]
    exact ⟨_, dispatch_of_unknown w r s hrun _ hd, report_endsUnchanged _ s⟩
  · rw [dispatchText_of_ok text w r s hw, dispatch_of_ok w r s hrun i hd]
    obtain ⟨t, ht⟩ := exec_answers_next i (s.setRand r)
    exact ⟨t, ht, exec_status ht⟩

end Sys2Proof.Machine
end

section
/-! PROOFS. Where the run of the reference sequencer ends, and the word the host places for the next step
(70_reset_and_hazards.md R121 to R123). -/

namespace Sys2Proof.Machine

/-! ## The ends of a run (R123) -/

/-- No word stands at PC exactly when PC names no slot of the program. -/
theorem fetch_eq_none_iff (s : State) : s.fetch = none ↔ s.prog.length ≤ s.pc.toNat := List.getElem?_eq_none_iff

theorem step_of_stopped {s : State} (h : s.status ≠ .ok) : step s = .fault (.stoppedOnStatus s.status) := if_neg h

theorem step_of_fetch_none {s : State} (hs : s.status = .ok) (h : s.fetch = none) :
    step s = .fault .endOfProgram := by
  simp [step, sequencerTurn, hs, h]

/-- With a word at PC and the last status OK the step answers, whatever the word is. -/
theorem step_answers_next {s : State} {w : Word} (hs : s.status = .ok) (hw : s.fetch = some w) :
    ∃ t, step s = .next t := by
  obtain ⟨t, ht⟩ := dispatch_answers_next w s.drawn s.afterDraw
  exact ⟨_, step_of_dispatch s t w hs hw ht⟩

/-- Everything a step can be: a stop on the last status, the end of the program, or a next state. -/
theorem step_cases (s : State) :
    (s.status ≠ .ok ∧ step s = .fault (.stoppedOnStatus s.status)) ∨
    (s.status = .ok ∧ s.prog.length ≤ s.pc.toNat ∧ step s = .fault .endOfProgram) ∨
    (s.status = .ok ∧ s.pc.toNat < s.prog.length ∧ ∃ t, step s = .next t) := by
  by_cases hs : s.status = .ok
  · cases hw : s.fetch with
    | none => exact .inr (.inl ⟨hs, (fetch_eq_none_iff s).1 hw, step_of_fetch_none hs hw⟩)
    | some w =>
      obtain ⟨hlt, -⟩ := List.getElem?_eq_some_iff.1 hw
      exact .inr (.inr ⟨hs, hlt, step_answers_next hs hw⟩)
  · exact .inl ⟨hs, step_of_stopped hs⟩

/-- Settles O55: the two ends exclude each other, and a step at neither of them answers a next state. -/
theorem stepStopsExactlyAtTheEndOfARun : Obligations.StepStopsExactlyAtTheEndOfARun := by
  intro s
  obtain ⟨hs, h⟩ | ⟨hs, hend, h⟩ | ⟨hs, hlt, t, h⟩ := step_cases s
  · simp [h, hs, eq_comm]
  · simp [h, hs, hend, eq_comm]
  · simp [h, hs, hlt]

/-! ## The host's fetch (R121, R122) -/

theorem decode_tableWord {nbits w : Nat} {i : Instr} (h : decodeTableWord nbits w = some i) :
    decode (tableWord nbits w) = .ok i := by
  unfold decodeTableWord at h
  split at h
  · split at h
    · next hd => exact hd.trans (congrArg Except.ok (Option.some.inj h))
    · cases h
  · cases h

theorem withFetchWord_fetch (s : State) (nbits w : Nat) :
    (s.withFetchWord nbits w).fetch = some (tableWord nbits w) :=
  placeWord_self s.prog s.pc.toNat (tableWord nbits w)

/-- Settles O54: the placed word is the one fetched, it decodes to the instruction, and the block still runs, so
the step is the effect of that instruction and the environment's advance. -/
theorem stepRunsTheFetchWord : Obligations.StepRunsTheFetchWord := by
  intro s nbits w i hrun hi
  obtain ⟨t, ht⟩ := exec_answers_next i ((s.withFetchWord nbits w).afterDraw.setRand s.drawn)
  exact ⟨t, ht, step_of_exec rfl hrun (withFetchWord_fetch s nbits w) (decode_tableWord hi) ht⟩

end Sys2Proof.Machine
end
